-- ==== Sys2Proof/Word.lean ====
section
/-! DEFINITION. The word types of the core and their plainest arithmetic (00_scope R7, R9, R10; 10_state R20). -/

namespace Sys2Proof

/-- A byte: a memory cell, a V register, a timer (10_state R20). -/
abbrev Byte := BitVec 8

/-- A 16-bit value: an opcode, PC, I, a stack slot (10_state R20; 30_encoding R90). -/
abbrev Word := BitVec 16

/-- A register number, 0 to 15 (10_state R22). -/
abbrev Reg := Fin 16

/-- A key number, 0 to 15 (44_timers_keypad R260). -/
abbrev Key := Fin 16

/-- `trunc_8(v)` (00_scope R9). -/
def trunc8 (v : Nat) : Byte := BitVec.ofNat 8 v

/-- `trunc_16(v)` (00_scope R9). -/
def trunc16 (v : Nat) : Word := BitVec.ofNat 16 v

/-- `trunc_12(v)`, the value `v & 0xFFF` held in 16 bits (00_scope R9). -/
def trunc12 (v : Nat) : Word := BitVec.ofNat 16 (v % 0x1000)

/-- `bool(c)`, as the byte VF takes (00_scope R9). -/
def boolByte (c : Bool) : Byte := if c then 1#8 else 0#8

end Sys2Proof
end

