-- ==== Sys2Proof/Machine/Flags.lean ====
section
/-! DEFINITION. The values the flag register VF takes (10_state R23, R24), computed from the operands' values before
the instruction. The collision flag is computed with the draw (Machine/Display.lean). -/

namespace Sys2Proof.Machine

/-- Carry of `8xy4`: 1 if the 9-bit sum exceeds 255 (41_register_alu R167). -/
def carryFlag (a b : Byte) : Byte := boolByte (decide (a.toNat + b.toNat > 255))

/-- Not-borrow of `8xy5` and `8xy7`: 1 if the minuend is strictly greater, so 0 for equal operands
(41_register_alu R168, R170; 90_conflicts C1). -/
def notBorrowFlag (minuend subtrahend : Byte) : Byte := boolByte (decide (minuend.toNat > subtrahend.toNat))

/-- Shift-out of `8xy6`: bit 0 before the shift (41_register_alu R169). -/
def shiftOutLow (a : Byte) : Byte := boolByte (a.getLsbD 0)

/-- Shift-out of `8xyE`: bit 7 before the shift (41_register_alu R171). -/
def shiftOutHigh (a : Byte) : Byte := boolByte (a.getLsbD 7)

end Sys2Proof.Machine
end

