-- ==== Sys2Proof/Syntax.lean ====
section
/-! DEFINITION. The instructions: one constructor per row of the opcode map (30_encoding R96), with the fields of
R94 as operands. -/

namespace Sys2Proof

/-- The 34 instructions of 30_encoding R96. -/
inductive Instr where
  /-- `00E0`, CLS (R201). -/
  | cls
  /-- `00EE`, RET (R121). -/
  | ret
  /-- `1nnn`, JP nnn (R122). -/
  | jp (nnn : BitVec 12)
  /-- `2nnn`, CALL nnn (R123). -/
  | call (nnn : BitVec 12)
  /-- `3xkk`, SE Vx, kk (R124). -/
  | seImm (x : Reg) (kk : Byte)
  /-- `4xkk`, SNE Vx, kk (R125). -/
  | sneImm (x : Reg) (kk : Byte)
  /-- `5xy0`, SE Vx, Vy (R126). -/
  | seReg (x y : Reg)
  /-- `6xkk`, LD Vx, kk (R161). -/
  | ldImm (x : Reg) (kk : Byte)
  /-- `7xkk`, ADD Vx, kk (R162). -/
  | addImm (x : Reg) (kk : Byte)
  /-- `8xy0`, LD Vx, Vy (R163). -/
  | ldReg (x y : Reg)
  /-- `8xy1`, OR Vx, Vy (R164). -/
  | orReg (x y : Reg)
  /-- `8xy2`, AND Vx, Vy (R165). -/
  | andReg (x y : Reg)
  /-- `8xy3`, XOR Vx, Vy (R166). -/
  | xorReg (x y : Reg)
  /-- `8xy4`, ADD Vx, Vy (R167). -/
  | addReg (x y : Reg)
  /-- `8xy5`, SUB Vx, Vy (R168). -/
  | subReg (x y : Reg)
  /-- `8xy6`, SHR Vx: the word holds a y, which the instruction ignores (R169; 30_encoding R97). -/
  | shr (x y : Reg)
  /-- `8xy7`, SUBN Vx, Vy (R170). -/
  | subnReg (x y : Reg)
  /-- `8xyE`, SHL Vx: the word holds a y, which the instruction ignores (R171; 30_encoding R97). -/
  | shl (x y : Reg)
  /-- `9xy0`, SNE Vx, Vy (R127). -/
  | sneReg (x y : Reg)
  /-- `annn`, LD I, nnn (R231). -/
  | ldI (nnn : BitVec 12)
  /-- `bnnn`, JP V0, nnn (R128). -/
  | jpV0 (nnn : BitVec 12)
  /-- `cxkk`, RND Vx, kk (R172). -/
  | rnd (x : Reg) (kk : Byte)
  /-- `dxyn`, DRW Vx, Vy, n (R202): n is a height in rows. -/
  | drw (x y : Reg) (n : Fin 16)
  /-- `ex9E`, SKP Vx (R261). -/
  | skp (x : Reg)
  /-- `exA1`, SKNP Vx (R262). -/
  | sknp (x : Reg)
  /-- `fx07`, LD Vx, DT (R263). -/
  | ldVxDT (x : Reg)
  /-- `fx0A`, LD Vx, K (R266). -/
  | ldVxK (x : Reg)
  /-- `fx15`, LD DT, Vx (R264). -/
  | ldDTVx (x : Reg)
  /-- `fx18`, LD ST, Vx (R265). -/
  | ldSTVx (x : Reg)
  /-- `fx1e`, ADD I, Vx (R232). -/
  | addIVx (x : Reg)
  /-- `fx29`, LD F, Vx (R233). -/
  | ldFVx (x : Reg)
  /-- `fx33`, LD B, Vx (R234). -/
  | ldBVx (x : Reg)
  /-- `fx55`, LD [I], Vx (R235). -/
  | storeRegs (x : Reg)
  /-- `fx65`, LD Vx, [I] (R236). -/
  | loadRegs (x : Reg)
  deriving DecidableEq, Repr

end Sys2Proof
end

