-- ==== Sys2Proof/Decode.lean ====
section
/-! DEFINITION. Decoding (30_encoding R90, R93, R94, R96, R98), total on any bytes, and after it the encoder,
with the opcode map of R96 as a list of rows. -/

namespace Sys2Proof

/-- The field `x = op[11:8]` (30_encoding R94). -/
def fieldX (op : Word) : Reg := (op.extractLsb' 8 4).toFin

/-- The field `y = op[7:4]` (30_encoding R94). -/
def fieldY (op : Word) : Reg := (op.extractLsb' 4 4).toFin

/-- The field `n = op[3:0]` (30_encoding R94). -/
def fieldN (op : Word) : Fin 16 := (op.extractLsb' 0 4).toFin

/-- The field `kk = op[7:0]` (30_encoding R94). -/
def fieldKK (op : Word) : Byte := op.extractLsb' 0 8

/-- The field `nnn = op[11:0]` (30_encoding R94). -/
def fieldNNN (op : Word) : BitVec 12 := op.extractLsb' 0 12

/-- The group `g = op[15:12]` (30_encoding R94). -/
def fieldG (op : Word) : BitVec 4 := op.extractLsb' 12 4

/-- Group 0x0: its second-level key is the whole opcode (30_encoding R93). -/
def decodeGroup0 (op : Word) : Option Instr :=
  if op = 0x00E0#16 then some .cls
  else if op = 0x00EE#16 then some .ret
  else none

/-- Group 0x8: its second-level key is the low nibble (30_encoding R93). -/
def decodeGroup8 (x y : Reg) (n : Fin 16) : Option Instr :=
  match n with
  | 0x0 => some (.ldReg x y)
  | 0x1 => some (.orReg x y)
  | 0x2 => some (.andReg x y)
  | 0x3 => some (.xorReg x y)
  | 0x4 => some (.addReg x y)
  | 0x5 => some (.subReg x y)
  | 0x6 => some (.shr x y)
  | 0x7 => some (.subnReg x y)
  | 0xE => some (.shl x y)
  | _ => none

/-- Group 0xE: its second-level key is the low byte (30_encoding R93). -/
def decodeGroupE (x : Reg) (kk : Byte) : Option Instr :=
  if kk = 0x9E#8 then some (.skp x)
  else if kk = 0xA1#8 then some (.sknp x)
  else none

/-- Group 0xF: its second-level key is the low byte (30_encoding R93). -/
def decodeGroupF (x : Reg) (kk : Byte) : Option Instr :=
  if kk = 0x07#8 then some (.ldVxDT x)
  else if kk = 0x0A#8 then some (.ldVxK x)
  else if kk = 0x15#8 then some (.ldDTVx x)
  else if kk = 0x18#8 then some (.ldSTVx x)
  else if kk = 0x1E#8 then some (.addIVx x)
  else if kk = 0x29#8 then some (.ldFVx x)
  else if kk = 0x33#8 then some (.ldBVx x)
  else if kk = 0x55#8 then some (.storeRegs x)
  else if kk = 0x65#8 then some (.loadRegs x)
  else none

/-- The instruction a 16-bit opcode stands for, `none` where it is illegal (30_encoding R93, R96, R98); the last arm is
group 0xF. -/
def decodeWord (op : Word) : Option Instr :=
  match fieldG op with
  | 0x0 => decodeGroup0 op
  | 0x1 => some (.jp (fieldNNN op))
  | 0x2 => some (.call (fieldNNN op))
  | 0x3 => some (.seImm (fieldX op) (fieldKK op))
  | 0x4 => some (.sneImm (fieldX op) (fieldKK op))
  | 0x5 => if fieldN op = 0 then some (.seReg (fieldX op) (fieldY op)) else none
  | 0x6 => some (.ldImm (fieldX op) (fieldKK op))
  | 0x7 => some (.addImm (fieldX op) (fieldKK op))
  | 0x8 => decodeGroup8 (fieldX op) (fieldY op) (fieldN op)
  | 0x9 => if fieldN op = 0 then some (.sneReg (fieldX op) (fieldY op)) else none
  | 0xA => some (.ldI (fieldNNN op))
  | 0xB => some (.jpV0 (fieldNNN op))
  | 0xC => some (.rnd (fieldX op) (fieldKK op))
  | 0xD => some (.drw (fieldX op) (fieldY op) (fieldN op))
  | 0xE => decodeGroupE (fieldX op) (fieldKK op)
  | _ => decodeGroupF (fieldX op) (fieldKK op)

/-- Why bytes do not decode. -/
inductive DecodeError where
  /-- Fewer than two bytes; a fetch always supplies two (30_encoding R90), so no step meets it. -/
  | truncated
  /-- The word matches no row of the opcode map (30_encoding R98). -/
  | illegal (opcode : Word)
  deriving DecidableEq, Repr

/-- The big-endian combination of two bytes (00_scope R11; 20_memory R61). -/
def wordOfBytes (hi lo : Byte) : Word := trunc16 (hi.toNat * 0x100 + lo.toNat)

/-- The byte at the lower address, the high byte (20_memory R61). -/
def highByte (w : Word) : Byte := w.extractLsb' 8 8

/-- The byte at the higher address, the low byte (20_memory R61). -/
def lowByte (w : Word) : Byte := w.extractLsb' 0 8

/-- Decode the instruction at the head of a byte list, and give the bytes after it: two bytes are always consumed
(30_encoding R90). -/
def decode : List Byte → Except DecodeError (Instr × List Byte)
  | hi :: lo :: rest =>
    match decodeWord (wordOfBytes hi lo) with
    | some i => .ok (i, rest)
    | none => .error (.illegal (wordOfBytes hi lo))
  | _ => .error .truncated

/-- The instruction the decoder reads from a word numbered as spec/opcode_table.json numbers it: its low 16 bits,
laid out big-endian (30_encoding R90; 20_memory R61). -/
def decodeTableWord (nbits w : Nat) : Option Instr :=
  let word : Word := BitVec.ofNat 16 (w % 2 ^ nbits)
  match decode [highByte word, lowByte word] with
  | .ok (i, _) => some i
  | .error _ => none

/-! ## The encoder -/

/-- Format NNN (30_encoding R95). -/
def packNNN (g : BitVec 4) (nnn : BitVec 12) : Word := trunc16 (g.toNat * 0x1000 + nnn.toNat)

/-- Formats XKK and XSUB (30_encoding R95). -/
def packXKK (g : BitVec 4) (x : Reg) (kk : Byte) : Word :=
  trunc16 (g.toNat * 0x1000 + x.val * 0x100 + kk.toNat)

/-- Format XYN (30_encoding R95). -/
def packXYN (g : BitVec 4) (x y : Reg) (n : Fin 16) : Word :=
  trunc16 (g.toNat * 0x1000 + x.val * 0x100 + y.val * 0x10 + n.val)

/-- The opcode of an instruction (30_encoding R95, R96). -/
def encodeWord : Instr → Word
  | .cls => 0x00E0#16
  | .ret => 0x00EE#16
  | .jp nnn => packNNN 0x1#4 nnn
  | .call nnn => packNNN 0x2#4 nnn
  | .seImm x kk => packXKK 0x3#4 x kk
  | .sneImm x kk => packXKK 0x4#4 x kk
  | .seReg x y => packXYN 0x5#4 x y 0x0
  | .ldImm x kk => packXKK 0x6#4 x kk
  | .addImm x kk => packXKK 0x7#4 x kk
  | .ldReg x y => packXYN 0x8#4 x y 0x0
  | .orReg x y => packXYN 0x8#4 x y 0x1
  | .andReg x y => packXYN 0x8#4 x y 0x2
  | .xorReg x y => packXYN 0x8#4 x y 0x3
  | .addReg x y => packXYN 0x8#4 x y 0x4
  | .subReg x y => packXYN 0x8#4 x y 0x5
  | .shr x y => packXYN 0x8#4 x y 0x6
  | .subnReg x y => packXYN 0x8#4 x y 0x7
  | .shl x y => packXYN 0x8#4 x y 0xE
  | .sneReg x y => packXYN 0x9#4 x y 0x0
  | .ldI nnn => packNNN 0xA#4 nnn
  | .jpV0 nnn => packNNN 0xB#4 nnn
  | .rnd x kk => packXKK 0xC#4 x kk
  | .drw x y n => packXYN 0xD#4 x y n
  | .skp x => packXKK 0xE#4 x 0x9E#8
  | .sknp x => packXKK 0xE#4 x 0xA1#8
  | .ldVxDT x => packXKK 0xF#4 x 0x07#8
  | .ldVxK x => packXKK 0xF#4 x 0x0A#8
  | .ldDTVx x => packXKK 0xF#4 x 0x15#8
  | .ldSTVx x => packXKK 0xF#4 x 0x18#8
  | .addIVx x => packXKK 0xF#4 x 0x1E#8
  | .ldFVx x => packXKK 0xF#4 x 0x29#8
  | .ldBVx x => packXKK 0xF#4 x 0x33#8
  | .storeRegs x => packXKK 0xF#4 x 0x55#8
  | .loadRegs x => packXKK 0xF#4 x 0x65#8

/-- The bytes of an instruction in address order (20_memory R61). -/
def encode (i : Instr) : List Byte := [highByte (encodeWord i), lowByte (encodeWord i)]

/-! ## The opcode map as data -/

/-- A row of the opcode map: an opcode is the row's when `(op & mask) = pattern` (30_encoding R96). -/
structure OpcodeRow where
  pattern : Word
  mask : Word
  deriving DecidableEq, Repr

/-- Whether an opcode matches a row (30_encoding R96). -/
def OpcodeRow.hits (r : OpcodeRow) (op : Word) : Bool := (op &&& r.mask) == r.pattern

/-- The row of an instruction, copied from the match and mask columns of 30_encoding R96. -/
def opcodeRow : Instr → OpcodeRow
  | .cls => ⟨0x00E0#16, 0xFFFF#16⟩
  | .ret => ⟨0x00EE#16, 0xFFFF#16⟩
  | .jp _ => ⟨0x1000#16, 0xF000#16⟩
  | .call _ => ⟨0x2000#16, 0xF000#16⟩
  | .seImm _ _ => ⟨0x3000#16, 0xF000#16⟩
  | .sneImm _ _ => ⟨0x4000#16, 0xF000#16⟩
  | .seReg _ _ => ⟨0x5000#16, 0xF00F#16⟩
  | .ldImm _ _ => ⟨0x6000#16, 0xF000#16⟩
  | .addImm _ _ => ⟨0x7000#16, 0xF000#16⟩
  | .ldReg _ _ => ⟨0x8000#16, 0xF00F#16⟩
  | .orReg _ _ => ⟨0x8001#16, 0xF00F#16⟩
  | .andReg _ _ => ⟨0x8002#16, 0xF00F#16⟩
  | .xorReg _ _ => ⟨0x8003#16, 0xF00F#16⟩
  | .addReg _ _ => ⟨0x8004#16, 0xF00F#16⟩
  | .subReg _ _ => ⟨0x8005#16, 0xF00F#16⟩
  | .shr _ _ => ⟨0x8006#16, 0xF00F#16⟩
  | .subnReg _ _ => ⟨0x8007#16, 0xF00F#16⟩
  | .shl _ _ => ⟨0x800E#16, 0xF00F#16⟩
  | .sneReg _ _ => ⟨0x9000#16, 0xF00F#16⟩
  | .ldI _ => ⟨0xA000#16, 0xF000#16⟩
  | .jpV0 _ => ⟨0xB000#16, 0xF000#16⟩
  | .rnd _ _ => ⟨0xC000#16, 0xF000#16⟩
  | .drw _ _ _ => ⟨0xD000#16, 0xF000#16⟩
  | .skp _ => ⟨0xE09E#16, 0xF0FF#16⟩
  | .sknp _ => ⟨0xE0A1#16, 0xF0FF#16⟩
  | .ldVxDT _ => ⟨0xF007#16, 0xF0FF#16⟩
  | .ldVxK _ => ⟨0xF00A#16, 0xF0FF#16⟩
  | .ldDTVx _ => ⟨0xF015#16, 0xF0FF#16⟩
  | .ldSTVx _ => ⟨0xF018#16, 0xF0FF#16⟩
  | .addIVx _ => ⟨0xF01E#16, 0xF0FF#16⟩
  | .ldFVx _ => ⟨0xF029#16, 0xF0FF#16⟩
  | .ldBVx _ => ⟨0xF033#16, 0xF0FF#16⟩
  | .storeRegs _ => ⟨0xF055#16, 0xF0FF#16⟩
  | .loadRegs _ => ⟨0xF065#16, 0xF0FF#16⟩

/-- The opcode map, its rows in the order of 30_encoding R96. -/
def opcodeMap : List OpcodeRow :=
  [ ⟨0x00E0#16, 0xFFFF#16⟩, ⟨0x00EE#16, 0xFFFF#16⟩, ⟨0x1000#16, 0xF000#16⟩, ⟨0x2000#16, 0xF000#16⟩,
    ⟨0x3000#16, 0xF000#16⟩, ⟨0x4000#16, 0xF000#16⟩, ⟨0x5000#16, 0xF00F#16⟩, ⟨0x6000#16, 0xF000#16⟩,
    ⟨0x7000#16, 0xF000#16⟩ ] ++
  [ ⟨0x8000#16, 0xF00F#16⟩, ⟨0x8001#16, 0xF00F#16⟩, ⟨0x8002#16, 0xF00F#16⟩, ⟨0x8003#16, 0xF00F#16⟩,
    ⟨0x8004#16, 0xF00F#16⟩, ⟨0x8005#16, 0xF00F#16⟩, ⟨0x8006#16, 0xF00F#16⟩, ⟨0x8007#16, 0xF00F#16⟩,
    ⟨0x800E#16, 0xF00F#16⟩ ] ++
  [ ⟨0x9000#16, 0xF00F#16⟩, ⟨0xA000#16, 0xF000#16⟩, ⟨0xB000#16, 0xF000#16⟩, ⟨0xC000#16, 0xF000#16⟩,
    ⟨0xD000#16, 0xF000#16⟩, ⟨0xE09E#16, 0xF0FF#16⟩, ⟨0xE0A1#16, 0xF0FF#16⟩ ] ++
  [ ⟨0xF007#16, 0xF0FF#16⟩, ⟨0xF00A#16, 0xF0FF#16⟩, ⟨0xF015#16, 0xF0FF#16⟩, ⟨0xF018#16, 0xF0FF#16⟩,
    ⟨0xF01E#16, 0xF0FF#16⟩, ⟨0xF029#16, 0xF0FF#16⟩, ⟨0xF033#16, 0xF0FF#16⟩, ⟨0xF055#16, 0xF0FF#16⟩,
    ⟨0xF065#16, 0xF0FF#16⟩ ]

end Sys2Proof
end

