-- ==== Sys2Proof/Config.lean ====
section
/-! DEFINITION. What is fixed for one machine (00_scope R5) and the free values of its environment (00_scope R13). -/

namespace Sys2Proof

/-- `MEM_SIZE` (00_scope R5; 20_memory R60). -/
def memSize : Nat := 0x1000

/-- `USER_BASE`, the first byte of the user region and the reset value of PC (00_scope R5). -/
def userBase : Nat := 0x200

/-- `FB_WIDTH` in pixels (00_scope R5). -/
def fbWidth : Nat := 64

/-- `FB_HEIGHT` in pixels (00_scope R5). -/
def fbHeight : Nat := 32

/-- `FB_STRIDE`, bytes in a row (00_scope R5). -/
def fbStride : Nat := 8

/-- `FB_BYTES` (00_scope R5). -/
def fbBytes : Nat := 256

/-- The two values of `DRAW_EDGE` (00_scope R5; decision D15). -/
inductive Edge where
  | wrap
  | clip
  deriving DecidableEq, Repr

/-- The parameters of 00_scope R5 that a model takes as an argument.
DESIGN CHOICE (notes/assumptions/4.md), safe: they stand in State and no operation changes them. -/
structure Params where
  /-- `STACK_SLOTS`. -/
  stackSlots : Nat
  /-- `FONT_BASE`. -/
  fontBase : Nat
  /-- `GLYPH_STRIDE`. -/
  glyphStride : Nat
  /-- `DRAW_COLLISION`. -/
  drawCollision : Bool
  /-- `DRAW_EDGE`. -/
  drawEdge : Edge
  deriving DecidableEq, Repr

/-- The defaults of 00_scope R5 (decisions D1, D12, D14, D15). -/
def Params.default : Params :=
  { stackSlots := 16, fontBase := 0x000, glyphStride := 5, drawCollision := true, drawEdge := .wrap }

/-- What the collaborators answer in one step (00_scope R13). -/
structure Inputs where
  /-- `KEY_STATE`: `held(k)` for the sixteen keys. -/
  held : Vector Bool 16
  /-- `press`: the Keypad Source's answer to `wait_for_key`. -/
  press : Option Key
  /-- `rnd`: the entropy port's byte. -/
  rnd : Byte
  deriving DecidableEq, Repr, Inhabited

/-- The inputs of the step numbered by its argument, where State lists none: free, nothing constrains them
(00_scope R13; 93_implementation_defined U7, U8, U9; DESIGN CHOICE, notes/assumptions/1.md, safe). -/
opaque Config.freeInputs : Nat → Inputs

end Sys2Proof
end

