-- ==== Sys2Proof/Machine/State.lean ====
section
/-! DEFINITION. The state of the core (10_state R20), the faults and refusals a step can end in (60_exceptions R301),
and the state after reset (10_state R36). -/

namespace Sys2Proof.Machine

/-- Memory: pairs of an address and a byte, addresses strictly rising, no entry equal to what an unlisted address
reads as (20_memory R60; `Memory.wf` in Machine/Memory.lean). -/
abbrev Memory := List Host.Cell

/-- One call of `present(width, height, framebuffer_bytes)` (60_exceptions R335). -/
structure Present where
  width : Nat
  height : Nat
  bytes : List Byte
  deriving DecidableEq, Repr

/-- What a step that does not fault returns (60_exceptions R300). -/
inductive StepResult where
  /-- `Continue`: the instruction completed and its writes are committed. -/
  | continued
  /-- `AwaitingKey`: only `fx0A`, when no key is pressed; nothing is committed. -/
  | awaitingKey
  deriving DecidableEq, Repr

/-- The `op` of a `MemoryRangeFault` (60_exceptions R301, R303). -/
inductive MemOp where
  | fetch
  | draw
  | bcd
  | storeRegs
  | loadRegs
  deriving DecidableEq, Repr

/-- The faults (60_exceptions R301). A fault is the host's to handle; the state is the one before the step (R307, R311). -/
inductive Fault where
  /-- Raised by decode: the word matches no row of the opcode map (R302). Safe: the spec's own fault. -/
  | illegalOpcode (opcode address : Word)
  /-- Raised by `2nnn` when the stack is full (R304). Safe: the spec's own fault. -/
  | stackOverflow
  /-- Raised by `00EE` when the stack is empty (R305). Safe: the spec's own fault. -/
  | stackUnderflow
  /-- Raised by `load`, never by a step (R306). Safe: the spec's own fault. -/
  | programTooLarge
  /-- Raised by fetch, `dxyn`, `fx33`, `fx55` and `fx65` (R303). Safe: the spec's own fault. -/
  | memoryRange (op : MemOp) (base : Word) (length : Nat)
  /-- Raised by `2nnn` and `00EE` when SP > STACK_SLOTS, where the slot would lie outside memory; no run reaches such
  a state (10_state R28, R35). DESIGN CHOICE (notes/assumptions/8.md). Safe: the machine stops. -/
  | stackPointerOutOfRange
  deriving DecidableEq, Repr

/-- The refusals. -/
inductive Refusal where
  /-- Raised by `exec` for an instruction that has no meaning yet; in this model no arm raises it. Safe. -/
  | notModelled (mnemonic : String)
  deriving DecidableEq, Repr

/-- The state: the record of 10_state R20, the parameters of 00_scope R5, and four fields of the model's own. -/
structure State where
  /-- V0 to VF (R22). -/
  v : Vector Byte 16
  /-- The index register I (R27). -/
  i : Word
  /-- The program counter (R25). -/
  pc : Word
  /-- The stack pointer, a slot index (R28). -/
  sp : Byte
  /-- The delay timer (R30). -/
  dt : Byte
  /-- The sound timer (R31). -/
  st : Byte
  /-- Memory, with its four regions (R20; 20_memory R64). -/
  mem : Memory
  /-- The framebuffer-changed flag (R32). -/
  dirty : Bool
  /-- The parameters of 00_scope R5, changed by no operation (DESIGN CHOICE, notes/assumptions/4.md). -/
  params : Params
  /-- MODEL'S OWN: the inputs of the coming steps, next step first (DESIGN CHOICE, notes/assumptions/1.md). -/
  inputs : List Inputs
  /-- MODEL'S OWN: how many steps have completed, the argument of the free inputs (notes/assumptions/1.md). -/
  draws : Nat
  /-- MODEL'S OWN: what the last step returned (DESIGN CHOICE, notes/assumptions/2.md). -/
  result : StepResult
  /-- MODEL'S OWN: the calls of `present` so far, newest first (DESIGN CHOICE, notes/assumptions/3.md). -/
  presents : List Present
  deriving DecidableEq, Repr

/-- The machine right after construction (10_state R36; 70_reset R350) at the default parameters and the all-zero
RESERVED_IMAGE (DESIGN CHOICE, notes/assumptions/5.md and 6.md, unsafe for claims about a run from reset). -/
def State.reset : State :=
  { v := Vector.replicate 16 0#8
    i := 0x0000#16
    pc := 0x0200#16
    sp := 16#8
    dt := 0#8
    st := 0#8
    mem := []
    dirty := false
    params := Params.default
    inputs := []
    draws := 0
    result := .continued
    presents := [] }

end Sys2Proof.Machine
end

