-- ==== Sys2Proof/Machine/Memory.lean ====
section
/-! DEFINITION. The operations on memory (00_scope R11; 20_memory R60, R61, R63). They are total: every rule checks
its range before it calls them (00_scope R11). -/

namespace Sys2Proof.Machine

/-- What an address that no entry lists reads as: the reset value of the user, framebuffer and stack regions
(10_state R36, decision D4), and of the all-zero RESERVED_IMAGE (DESIGN CHOICE, notes/assumptions/5.md, unsafe). -/
def Memory.unlisted : Byte := 0#8

/-- `M[a]` (00_scope R11). -/
def Memory.read : Memory → Nat → Byte
  | [], _ => Memory.unlisted
  | (k, b) :: rest, a => if k = a then b else Memory.read rest a

/-- Memory with no entry for `a`. -/
def Memory.erase (m : Memory) (a : Nat) : Memory := m.filter fun c => c.1 != a

/-- Memory with an entry for `a` put before the first greater address. -/
def Memory.insert : Memory → Nat → Byte → Memory
  | [], a, b => [(a, b)]
  | (k, c) :: rest, a, b => if a < k then (a, b) :: (k, c) :: rest else (k, c) :: Memory.insert rest a b

/-- `M[a] <- b` (00_scope R11), in canonical form. An address outside memory does not exist, so nothing is written
there; no rule asks for it (20_memory R67). -/
def Memory.write (m : Memory) (a : Nat) (b : Byte) : Memory :=
  if a < memSize then
    if b = Memory.unlisted then m.erase a else (m.erase a).insert a b
  else m

/-- The canonical form: addresses strictly rising and inside memory, no entry equal to the unlisted byte. -/
abbrev Memory.wf (m : Memory) : Prop :=
  m.Pairwise (fun c d => c.1 < d.1) ∧ ∀ c ∈ m, c.1 < memSize ∧ c.2 ≠ Memory.unlisted

/-- `MemReadBytes(a, n)` (00_scope R11). -/
def Memory.readBytes (m : Memory) (a n : Nat) : List Byte := (List.range n).map fun k => m.read (a + k)

/-- Bytes written at consecutive addresses in ascending order (20_memory R63). -/
def Memory.writeBytes : Memory → Nat → List Byte → Memory
  | m, _, [] => m
  | m, a, b :: bs => Memory.writeBytes (m.write a b) (a + 1) bs

/-- `MemRead(a, 2)`, big-endian (00_scope R11; 20_memory R61). -/
def Memory.readWord (m : Memory) (a : Nat) : Word := wordOfBytes (m.read a) (m.read (a + 1))

/-- `MemWrite(a, 2, w)`, big-endian (00_scope R11; 20_memory R61). -/
def Memory.writeWord (m : Memory) (a : Nat) (w : Word) : Memory := m.writeBytes a [highByte w, lowByte w]

end Sys2Proof.Machine
end

