-- ==== Sys2Proof/Machine/Layout.lean ====
section
/-! DEFINITION. The address map: where the framebuffer and the stack lie (20_memory R64, R65; 42_display R200). -/

namespace Sys2Proof

/-- `STACK_BASE = MEM_SIZE - 2 * STACK_SLOTS` (00_scope R5; decisions D1, D2). -/
def Params.stackBase (p : Params) : Nat := memSize - 2 * p.stackSlots

/-- `FB_BASE = STACK_BASE - FB_BYTES` (00_scope R5; decision D1). -/
def Params.fbBase (p : Params) : Nat := p.stackBase - fbBytes

/-- `USER_SIZE = FB_BASE - USER_BASE` (00_scope R5). -/
def Params.userSize (p : Params) : Nat := p.fbBase - userBase

/-- The address of stack slot `k`, `STACK_BASE + 2k` (10_state R29). -/
def Params.slotAddr (p : Params) (k : Nat) : Nat := p.stackBase + 2 * k

/-- `InFB(a)` (43_index_memory R230). -/
def Params.inFB (p : Params) (a : Nat) : Bool := decide (p.fbBase ≤ a ∧ a < p.fbBase + fbBytes)

/-- Whether some of the `len` bytes at `base` lies in the framebuffer region (10_state R32). -/
def Params.touchesFB (p : Params) (base len : Nat) : Bool := (List.range len).any fun k => p.inFB (base + k)

/-- `FBAddr(px, py)` (42_display R200). -/
def Params.fbAddr (p : Params) (px py : Nat) : Nat := p.fbBase + fbStride * py + px / 8

/-- `FBBit(px)`: the leftmost pixel of a byte is its bit 7 (42_display R200; decision D13). -/
def fbBit (px : Nat) : Nat := 7 - px % 8

end Sys2Proof
end

