-- ==== Sys2Proof/Machine/Operands.lean ====
section
/-! DEFINITION. Operand forms: registers, the step's inputs, the I-based effective address, key and glyph numbers, and
the 8-bit results of the ALU. -/

namespace Sys2Proof.Machine

/-- The flag register's number (10_state R23). -/
def vF : Reg := 15

/-- `V[r]` (00_scope R10). -/
def State.getV (s : State) (r : Reg) : Byte := s.v.get r

/-- The values of V0 to Vx in order (43_index_memory R235). -/
def State.regsUpTo (s : State) (x : Reg) : List Byte := (s.v.toList).take (x.val + 1)

/-- The inputs of the step about to run: the listed ones, else free ones (00_scope R13; notes/assumptions/1.md). -/
def State.input (s : State) : Inputs :=
  match s.inputs with
  | inp :: _ => inp
  | [] => Config.freeInputs s.draws

/-- `EA() = I & 0xFFF` (43_index_memory R230; decision D8). -/
def State.ea (s : State) : Nat := s.i.toNat % 0x1000

/-- `KeyOf(v) = v & 0xF` (44_timers_keypad R260; decision D11). -/
def keyOf (v : Byte) : Key := ⟨v.toNat % 16, Nat.mod_lt _ (by decide)⟩

/-- `held(k)` (00_scope R13). -/
def State.held (s : State) (k : Key) : Bool := s.input.held.get k

/-- The byte a key number is stored as (44_timers_keypad R266). -/
def keyByte (k : Key) : Byte := trunc8 k.val

/-- `FONT_BASE + GLYPH_STRIDE * (v & 0xF)` (43_index_memory R233; decision D12). -/
def State.glyphAddr (s : State) (v : Byte) : Word :=
  trunc16 (s.params.fontBase + s.params.glyphStride * (v.toNat % 16))

/-- A 12-bit address as a PC or I value (30_encoding R94). -/
def addrWord (nnn : BitVec 12) : Word := nnn.zeroExtend 16

/-- `(nnn + V[0]) & 0xFFF` (40_control R128). -/
def State.indexedTarget (s : State) (nnn : BitVec 12) : Word := trunc12 (nnn.toNat + (s.getV 0).toNat)

/-- `(I + v) & 0xFFF` (43_index_memory R232). -/
def State.indexPlus (s : State) (v : Byte) : Word := trunc12 (s.i.toNat + v.toNat)

/-- `(a + b) mod 2^8` (41_register_alu R162, R167). -/
def sum8 (a b : Byte) : Byte := trunc8 (a.toNat + b.toNat)

/-- `(a - b) mod 2^8` (41_register_alu R168, R170). -/
def diff8 (a b : Byte) : Byte := BitVec.ofInt 8 ((a.toNat : Int) - (b.toNat : Int))

/-- `a >> 1` (41_register_alu R169). -/
def shiftRight8 (a : Byte) : Byte := trunc8 (a.toNat / 2)

/-- `(a << 1) mod 2^8` (41_register_alu R171). -/
def shiftLeft8 (a : Byte) : Byte := trunc8 (a.toNat * 2)

/-- The hundreds, tens and ones digits of a byte (43_index_memory R234). -/
def bcdDigits (v : Byte) : List Byte :=
  [trunc8 (v.toNat / 100), trunc8 (v.toNat / 10 % 10), trunc8 (v.toNat % 10)]

end Sys2Proof.Machine
end

