-- ==== Sys2Proof/Machine/Ops.lean ====
section
/-! DEFINITION. The operations that instructions share: register updates, the checked commit, the stack, the skip,
stores that may touch the framebuffer, the fetch and the end of a step. Taking a fault is `guarded` (a check that
fails ends the step and commits nothing, 60_exceptions R307); there is no trap entry and no return from one
(60_exceptions R311, R312). -/

namespace Sys2Proof.Machine

/-- What a meaning and a step answer. -/
abbrev Outcome := Host.Outcome State Fault Refusal

/-! ## Updates of one field -/

/-- `V[r] <- b` (00_scope R10). -/
def State.setV (s : State) (r : Reg) (b : Byte) : State := { s with v := s.v.set r.val b r.isLt }

/-- `I <- w` (10_state R27). -/
def State.setI (s : State) (w : Word) : State := { s with i := w }

/-- `PC <- w` (10_state R25). -/
def State.setPc (s : State) (w : Word) : State := { s with pc := w }

/-- `SP <- k` (10_state R28). -/
def State.setSp (s : State) (k : Byte) : State := { s with sp := k }

/-- `DT <- b` (10_state R30). -/
def State.setDt (s : State) (b : Byte) : State := { s with dt := b }

/-- `ST <- b` (10_state R31). -/
def State.setSt (s : State) (b : Byte) : State := { s with st := b }

/-- The memory after this step's writes (10_state R20). -/
def State.setMem (s : State) (m : Memory) : State := { s with mem := m }

/-- `dirty <- dirty or c` (10_state R32). -/
def State.dirtyIf (s : State) (c : Bool) : State := { s with dirty := s.dirty || c }

/-- `V[x]` first, VF last: the order of a flag-writing instruction (10_state R23; 41_register_alu R160). -/
def State.setVThenFlag (s : State) (x : Reg) (result flag : Byte) : State := (s.setV x result).setV vF flag

/-! ## Checks -/

/-- A rule's own check, then its effect: where the check names a fault the step ends with it and nothing is committed
(00_scope R12; 60_exceptions R307, R308). -/
def guarded (check : Option Fault) (effect : State) : Outcome :=
  match check with
  | some f => .fault f
  | none => .next effect

/-- `Check(op, I & 0xFFF, len)` (20_memory R67; 43_index_memory R230). -/
def State.rangeFault (s : State) (op : MemOp) (len : Nat) : Option Fault :=
  if s.ea + len > memSize then some (.memoryRange op (trunc16 s.ea) len) else none

/-! ## The stack -/

/-- The check of `Push` (40_control R120); the second line is the model's, for states no run reaches
(notes/assumptions/8.md). -/
def State.pushFault (s : State) : Option Fault :=
  if s.sp = 0#8 then some .stackOverflow
  else if s.params.stackSlots < s.sp.toNat then some .stackPointerOutOfRange
  else none

/-- The writes of `Push(w)`: SP is decremented first (40_control R120). -/
def State.pushed (s : State) (w : Word) : State :=
  (s.setSp (s.sp - 1#8)).setMem (s.mem.writeWord (s.params.slotAddr (s.sp.toNat - 1)) w)

/-- The check of `Pop` (40_control R120); the second line is the model's (notes/assumptions/8.md). -/
def State.popFault (s : State) : Option Fault :=
  if s.sp.toNat = s.params.stackSlots then some .stackUnderflow
  else if s.params.stackSlots < s.sp.toNat then some .stackPointerOutOfRange
  else none

/-- The value of the slot on top (40_control R120; 10_state R29). -/
def State.stackTop (s : State) : Word := s.mem.readWord (s.params.slotAddr s.sp.toNat)

/-- The write of `Pop`: SP is incremented, the slot keeps its bytes (40_control R120; 10_state R29). -/
def State.popped (s : State) : State := s.setSp (s.sp + 1#8)

/-! ## Skip, stores, block loads, the key wait -/

/-- `Skip(c)` (40_control R120). -/
def State.skipIf (s : State) (c : Bool) : State := if c then s.setPc (s.pc + 2#16) else s

/-- Bytes stored at `base`, setting `dirty` where one lands in the framebuffer region (10_state R32;
43_index_memory R230). -/
def State.stored (s : State) (base : Nat) (bs : List Byte) : State :=
  (s.setMem (s.mem.writeBytes base bs)).dirtyIf (s.params.touchesFB base bs.length)

/-- Registers from number `k` on, written in order from a list of bytes (43_index_memory R236). -/
def writeRegs : Vector Byte 16 → Nat → List Byte → Vector Byte 16
  | v, _, [] => v
  | v, k, b :: bs => writeRegs (v.setIfInBounds k b) (k + 1) bs

/-- `V[r] <- B[r]` for each byte of a list (43_index_memory R236). -/
def State.loadedRegs (s : State) (bs : List Byte) : State := { s with v := writeRegs s.v 0 bs }

/-- `I <- trunc_16(I + len)` (43_index_memory R235, R236; decision D9). -/
def State.advanceI (s : State) (len : Nat) : State := s.setI (trunc16 (s.i.toNat + len))

/-- `await_key`: the step is to end `AwaitingKey`; `State.settle` discards its writes (00_scope R12; 44_timers_keypad
R266). -/
def State.awaitKey (s : State) : State := { s with result := .awaitingKey }

/-! ## The start and the end of a step -/

/-- The fetch check passes: PC is even and in [0x200, 0xFFE] (30_encoding R91). -/
def State.fetchable (s : State) : Bool :=
  s.pc.toNat % 2 == 0 && decide (0x200 ≤ s.pc.toNat) && decide (s.pc.toNat ≤ 0xFFE)

/-- The fetch: the two bytes at PC, or the fault of a PC that fails the check (30_encoding R91, R92; decision D5). -/
def State.fetch (s : State) : Except Fault (List Byte) :=
  if s.fetchable then .ok (s.mem.readBytes s.pc.toNat 2)
  else .error (.memoryRange .fetch s.pc 2)

/-- The state the instruction's rule runs in: PC holds A + 2 (30_encoding R92). -/
def State.fetched (s : State) : State := { s with pc := s.pc + 2#16, result := .continued }

/-- The fault for bytes that do not decode, with the address they were fetched from (30_encoding R98;
60_exceptions R302). A fetch gives two bytes, so `truncated` does not arise. -/
def State.decodeFault (s : State) : DecodeError → Fault
  | .illegal op => .illegalOpcode op s.pc
  | .truncated => .memoryRange .fetch s.pc 2

/-- The framebuffer's bytes, row by row (20_memory R65; 60_exceptions R335). -/
def State.frame (s : State) : Present :=
  { width := fbWidth, height := fbHeight, bytes := s.mem.readBytes s.params.fbBase fbBytes }

/-- Post-step: with `dirty` set, `present` is called and `dirty` cleared (60_exceptions R331, R335). -/
def State.presentIfDirty (s : State) : State :=
  if s.dirty then { s with presents := s.frame :: s.presents, dirty := false } else s

/-- The step's inputs are used up: the next step has its own (00_scope R13; notes/assumptions/1.md). -/
def State.nextInputs (s : State) : State := { s with inputs := s.inputs.tail, draws := s.draws + 1 }

/-- The end of a step that began in `s0` and whose rule answered an outcome: a `Continue` commits and presents, an
`AwaitingKey` restores `s0`, a fault commits nothing (60_exceptions R307, R331; 00_scope R12). -/
def State.settle (s0 : State) : Outcome → Outcome
  | .next t =>
    .next (match t.result with
      | .continued => t.presentIfDirty.nextInputs
      | .awaitingKey => ({ s0 with result := .awaitingKey } : State).nextInputs)
  | .fault f => .fault f
  | .refused r => .refused r

/-- The state with a word stored at PC, where the next step fetches it; a PC that fails the fetch check is first moved
to 0x200 (the host's `withFetchWord`; notes/assumptions/11.md). -/
def State.placeWord (s : State) (w : Word) : State :=
  let at0 : Word := if s.fetchable then s.pc else 0x200#16
  (s.setPc at0).setMem (s.mem.writeWord at0.toNat w)

end Sys2Proof.Machine
end

