-- ==== Sys2Proof/Machine/Alu.lean ====
section
/-! DEFINITION. Register moves, ALU and random (41_register_alu R160 to R173). -/

namespace Sys2Proof.Machine

/-- `6xkk` (R161). -/
def execLdImm (x : Reg) (kk : Byte) (s : State) : Outcome := .next (s.setV x kk)

/-- `7xkk`: no flag (R162). -/
def execAddImm (x : Reg) (kk : Byte) (s : State) : Outcome := .next (s.setV x (sum8 (s.getV x) kk))

/-- `8xy0` (R163). -/
def execLdReg (x y : Reg) (s : State) : Outcome := .next (s.setV x (s.getV y))

/-- `8xy1`: no flag (R164; decision D26). -/
def execOrReg (x y : Reg) (s : State) : Outcome := .next (s.setV x (s.getV x ||| s.getV y))

/-- `8xy2`: no flag (R165; decision D26). -/
def execAndReg (x y : Reg) (s : State) : Outcome := .next (s.setV x (s.getV x &&& s.getV y))

/-- `8xy3`: no flag (R166; decision D26). -/
def execXorReg (x y : Reg) (s : State) : Outcome := .next (s.setV x (s.getV x ^^^ s.getV y))

/-- `8xy4` (R167). -/
def execAddReg (x y : Reg) (s : State) : Outcome :=
  .next (s.setVThenFlag x (sum8 (s.getV x) (s.getV y)) (carryFlag (s.getV x) (s.getV y)))

/-- `8xy5` (R168). -/
def execSubReg (x y : Reg) (s : State) : Outcome :=
  .next (s.setVThenFlag x (diff8 (s.getV x) (s.getV y)) (notBorrowFlag (s.getV x) (s.getV y)))

/-- `8xy6`: y is ignored (R169; 30_encoding R97). -/
def execShr (x _y : Reg) (s : State) : Outcome :=
  .next (s.setVThenFlag x (shiftRight8 (s.getV x)) (shiftOutLow (s.getV x)))

/-- `8xy7` (R170). -/
def execSubnReg (x y : Reg) (s : State) : Outcome :=
  .next (s.setVThenFlag x (diff8 (s.getV y) (s.getV x)) (notBorrowFlag (s.getV y) (s.getV x)))

/-- `8xyE`: y is ignored (R171; 30_encoding R97). -/
def execShl (x _y : Reg) (s : State) : Outcome :=
  .next (s.setVThenFlag x (shiftLeft8 (s.getV x)) (shiftOutHigh (s.getV x)))

/-- `cxkk`: the random byte is an input of the step (R172). -/
def execRnd (x : Reg) (kk : Byte) (s : State) : Outcome := .next (s.setV x (s.input.rnd &&& kk))

end Sys2Proof.Machine
end

