-- ==== Sys2Proof/Machine/Control.lean ====
section
/-! DEFINITION. Control transfer (40_control R120 to R130). Each meaning runs after the fetch, with PC = A + 2. -/

namespace Sys2Proof.Machine

/-- `00EE` (R121). -/
def execRet (s : State) : Outcome := guarded s.popFault (s.popped.setPc s.stackTop)

/-- `1nnn` (R122). -/
def execJp (nnn : BitVec 12) (s : State) : Outcome := .next (s.setPc (addrWord nnn))

/-- `2nnn`: the value pushed is PC, the address after the call (R123). -/
def execCall (nnn : BitVec 12) (s : State) : Outcome :=
  guarded s.pushFault ((s.pushed s.pc).setPc (addrWord nnn))

/-- `3xkk` (R124). -/
def execSeImm (x : Reg) (kk : Byte) (s : State) : Outcome := .next (s.skipIf (s.getV x == kk))

/-- `4xkk` (R125). -/
def execSneImm (x : Reg) (kk : Byte) (s : State) : Outcome := .next (s.skipIf (s.getV x != kk))

/-- `5xy0` (R126). -/
def execSeReg (x y : Reg) (s : State) : Outcome := .next (s.skipIf (s.getV x == s.getV y))

/-- `9xy0` (R127). -/
def execSneReg (x y : Reg) (s : State) : Outcome := .next (s.skipIf (s.getV x != s.getV y))

/-- `bnnn` (R128). -/
def execJpV0 (nnn : BitVec 12) (s : State) : Outcome := .next (s.setPc (s.indexedTarget nnn))

end Sys2Proof.Machine
end

