-- ==== Sys2Proof/Machine/Display.lean ====
section
/-! DEFINITION. Clear and the sprite compositor (42_display R200 to R204). -/

namespace Sys2Proof.Machine

/-- `Pixel(px, py)` (R200). -/
def Memory.pixel (m : Memory) (p : Params) (px py : Nat) : Bool := (m.read (p.fbAddr px py)).getLsbD (fbBit px)

/-- The columns of the set bits of one sprite byte, leftmost (bit 7) first (R202; decision D13). -/
def setColumns (b : Byte) : List Nat := (List.range 8).filter fun c => b.getLsbD (7 - c)

/-- The set bits of a sprite's rows from row `r` on, as pairs of a column and a row, in the order of R202's loops. -/
def spriteBits : Nat → List Byte → List (Nat × Nat)
  | _, [] => []
  | r, b :: bs => ((setColumns b).map fun c => (c, r)) ++ spriteBits (r + 1) bs

/-- The pixel a sprite bit lands on, `none` where it is off screen under `Clip` (R202; decision D15). -/
def placeBit (edge : Edge) (x0 y0 c r : Nat) : Option (Nat × Nat) :=
  match edge with
  | .wrap => some ((x0 + c) % fbWidth, (y0 + r) % fbHeight)
  | .clip => if x0 + c < fbWidth ∧ y0 + r < fbHeight then some (x0 + c, y0 + r) else none

/-- A draw in progress: memory, and whether a pixel went from 1 to 0. -/
structure Canvas where
  mem : Memory
  hit : Bool
  deriving DecidableEq, Repr

/-- One pixel XORed in, its old value noted in `hit` (R202). -/
def Canvas.toggle (p : Params) (cv : Canvas) (px py : Nat) : Canvas :=
  let a := p.fbAddr px py
  { mem := cv.mem.write a (cv.mem.read a ^^^ (1#8 <<< fbBit px))
    hit := cv.hit || cv.mem.pixel p px py }

/-- The sprite's set bits drawn one by one (R202). -/
def Canvas.drawBits (p : Params) (x0 y0 : Nat) : Canvas → List (Nat × Nat) → Canvas
  | cv, [] => cv
  | cv, (c, r) :: rest =>
    match placeBit p.drawEdge x0 y0 c r with
    | some (px, py) => Canvas.drawBits p x0 y0 (cv.toggle p px py) rest
    | none => Canvas.drawBits p x0 y0 cv rest

/-- The n sprite bytes, all read before any framebuffer write (R202; decision D16). -/
def State.spriteBytes (s : State) (n : Fin 16) : List Byte := s.mem.readBytes s.ea n.val

/-- The canvas after the draw of R202. -/
def State.canvas (s : State) (x y : Reg) (n : Fin 16) : Canvas :=
  Canvas.drawBits s.params ((s.getV x).toNat % fbWidth) ((s.getV y).toNat % fbHeight)
    { mem := s.mem, hit := false } (spriteBits 0 (s.spriteBytes n))

/-- The writes of `dxyn`: the framebuffer, `dirty`, and VF last where `DRAW_COLLISION` is set (R202; decision D14). -/
def State.drawn (s : State) (x y : Reg) (n : Fin 16) : State :=
  let cv := s.canvas x y n
  let t := (s.setMem cv.mem).dirtyIf true
  if s.params.drawCollision then t.setV vF (boolByte cv.hit) else t

/-- `dxyn` (R202). -/
def execDrw (x y : Reg) (n : Fin 16) (s : State) : Outcome := guarded (s.rangeFault .draw n.val) (s.drawn x y n)

/-- `00E0`: `dirty` is set even where nothing changes (R201; 90_conflicts C2). -/
def execCls (s : State) : Outcome :=
  .next ((s.setMem (s.mem.writeBytes s.params.fbBase (List.replicate fbBytes 0#8))).dirtyIf true)

/-! ## The byte algorithm, an implementation of the draw (R203) -/

/-- A byte of memory XORed with another. -/
def Memory.xorByte (m : Memory) (a : Nat) (b : Byte) : Memory := m.write a (m.read a ^^^ b)

/-- The part of a sprite byte that lands in the first framebuffer byte, `S[r] >> s` (R203). -/
def leftPart (b : Byte) (shift : Nat) : Byte := trunc8 (b.toNat / 2 ^ shift)

/-- The part that lands in the next byte, `(S[r] << (8 - s)) mod 2^8` (R203). -/
def rightPart (b : Byte) (shift : Nat) : Byte := trunc8 (b.toNat * 2 ^ (8 - shift))

/-- One sprite row composed byte by byte (R203). -/
def composeRow (p : Params) (x0 y0 r : Nat) (b : Byte) (m : Memory) : Memory :=
  let row := p.fbBase + fbStride * ((y0 + r) % fbHeight)
  let q := x0 / 8
  let first := m.xorByte (row + q) (leftPart b (x0 % 8))
  let both := if x0 % 8 = 0 then first else first.xorByte (row + (q + 1) % 8) (rightPart b (x0 % 8))
  match p.drawEdge with
  | .wrap => both
  | .clip => if fbHeight ≤ y0 + r then m else if q = 7 then first else both

/-- The sprite's rows from row `r` on composed byte by byte (R203). -/
def composeRows (p : Params) (x0 y0 : Nat) : Nat → List Byte → Memory → Memory
  | _, [], m => m
  | r, b :: bs, m => composeRows p x0 y0 (r + 1) bs (composeRow p x0 y0 r b m)

end Sys2Proof.Machine
end

