-- ==== Sys2Proof/Machine/Index.lean ====
section
/-! DEFINITION. The index register and the memory transfers (43_index_memory R230 to R238). -/

namespace Sys2Proof.Machine

/-- `annn` (R231). -/
def execLdI (nnn : BitVec 12) (s : State) : Outcome := .next (s.setI (addrWord nnn))

/-- `fx1e`: no flag (R232). -/
def execAddIVx (x : Reg) (s : State) : Outcome := .next (s.setI (s.indexPlus (s.getV x)))

/-- `fx29` (R233; decision D12). -/
def execLdFVx (x : Reg) (s : State) : Outcome := .next (s.setI (s.glyphAddr (s.getV x)))

/-- `fx33` (R234). -/
def execLdBVx (x : Reg) (s : State) : Outcome :=
  guarded (s.rangeFault .bcd 3) (s.stored s.ea (bcdDigits (s.getV x)))

/-- `fx55` (R235). -/
def execStoreRegs (x : Reg) (s : State) : Outcome :=
  guarded (s.rangeFault .storeRegs (x.val + 1)) ((s.stored s.ea (s.regsUpTo x)).advanceI (x.val + 1))

/-- `fx65`: every byte is read before a register is written (R236). -/
def execLoadRegs (x : Reg) (s : State) : Outcome :=
  guarded (s.rangeFault .loadRegs (x.val + 1))
    ((s.loadedRegs (s.mem.readBytes s.ea (x.val + 1))).advanceI (x.val + 1))

end Sys2Proof.Machine
end

