-- ==== Sys2Proof/Machine/Keypad.lean ====
section
/-! DEFINITION. Keypad and timer instructions (44_timers_keypad R260 to R266). -/

namespace Sys2Proof.Machine

/-- `ex9E` (R261). -/
def execSkp (x : Reg) (s : State) : Outcome := .next (s.skipIf (s.held (keyOf (s.getV x))))

/-- `exA1` (R262). -/
def execSknp (x : Reg) (s : State) : Outcome := .next (s.skipIf (!s.held (keyOf (s.getV x))))

/-- `fx07` (R263). -/
def execLdVxDT (x : Reg) (s : State) : Outcome := .next (s.setV x s.dt)

/-- `fx15` (R264). -/
def execLdDTVx (x : Reg) (s : State) : Outcome := .next (s.setDt (s.getV x))

/-- `fx18` (R265). -/
def execLdSTVx (x : Reg) (s : State) : Outcome := .next (s.setSt (s.getV x))

/-- `fx0A`: with no key pressed the step ends `AwaitingKey`, whose writes `State.settle` discards (R266;
DESIGN CHOICE, notes/assumptions/2.md). -/
def execLdVxK (x : Reg) (s : State) : Outcome :=
  .next (match s.input.press with
    | some k => s.setV x (keyByte k)
    | none => s.awaitKey)

end Sys2Proof.Machine
end

