-- ==== Sys2Proof/Machine/Step.lean ====
section
/-! DEFINITION. One `step()` as a whole (60_exceptions R331): fetch, decode, the instruction's rule, the end of the
step. -/

namespace Sys2Proof.Machine

/-- `step()` (60_exceptions R331); the checks come in the order of R308. -/
def step (s : State) : Host.Outcome State Fault Refusal :=
  match s.fetch with
  | .error f => .fault f
  | .ok bytes =>
    match decode bytes with
    | .error e => .fault (s.decodeFault e)
    | .ok (i, _) => s.settle (exec i s.fetched)

/-- The state with the instruction of bits `w` stored where `step` fetches next (notes/assumptions/11.md). -/
def State.withFetchWord (s : State) (nbits w : Nat) : State := s.placeWord (BitVec.ofNat 16 (w % 2 ^ nbits))

end Sys2Proof.Machine
end

