-- ==== Sys2Proof/Machine/Footprint.lean ====
section
/-! DEFINITION. What each instruction may write and read, copied from the spec's own tables, for statements about all
instructions at once. No meaning uses these definitions. -/

namespace Sys2Proof

/-- The V registers an instruction writes (the "writes" column of 10_state R22). -/
def Instr.writesV (i : Instr) (r : Reg) : Bool :=
  match i with
  | .ldImm x _ => r == x
  | .addImm x _ => r == x
  | .ldReg x _ => r == x
  | .orReg x _ => r == x
  | .andReg x _ => r == x
  | .xorReg x _ => r == x
  | .addReg x _ => r == x || r == 15
  | .subReg x _ => r == x || r == 15
  | .shr x _ => r == x || r == 15
  | .subnReg x _ => r == x || r == 15
  | .shl x _ => r == x || r == 15
  | .rnd x _ => r == x
  | .drw _ _ _ => r == 15
  | .ldVxDT x => r == x
  | .ldVxK x => r == x
  | .loadRegs x => decide (r ≤ x)
  | .cls | .ret | .jp _ | .call _ | .seImm _ _ | .sneImm _ _ | .seReg _ _ | .sneReg _ _ | .ldI _ | .jpV0 _ => false
  | .skp _ | .sknp _ | .ldDTVx _ | .ldSTVx _ | .addIVx _ | .ldFVx _ | .ldBVx _ | .storeRegs _ => false

/-- The writers of I (10_state R27). -/
def Instr.writesI (i : Instr) : Bool :=
  match i with
  | .ldI _ | .addIVx _ | .ldFVx _ | .storeRegs _ | .loadRegs _ => true
  | .cls | .ret | .jp _ | .call _ | .seImm _ _ | .sneImm _ _ | .seReg _ _ | .ldImm _ _ | .addImm _ _ => false
  | .ldReg _ _ | .orReg _ _ | .andReg _ _ | .xorReg _ _ | .addReg _ _ | .subReg _ _ | .shr _ _ => false
  | .subnReg _ _ | .shl _ _ | .sneReg _ _ | .jpV0 _ | .rnd _ _ | .drw _ _ _ | .skp _ | .sknp _ => false
  | .ldVxDT _ | .ldVxK _ | .ldDTVx _ | .ldSTVx _ | .ldBVx _ => false

/-- The instructions that set PC beyond the fetch's advance: the branching rows of the table of 10_state R25. -/
def Instr.branches (i : Instr) : Bool :=
  match i with
  | .ret | .jp _ | .call _ | .seImm _ _ | .sneImm _ _ | .seReg _ _ | .sneReg _ _ | .jpV0 _ | .skp _ | .sknp _ => true
  | .cls | .ldImm _ _ | .addImm _ _ | .ldReg _ _ | .orReg _ _ | .andReg _ _ | .xorReg _ _ | .addReg _ _ => false
  | .subReg _ _ | .shr _ _ | .subnReg _ _ | .shl _ _ | .ldI _ | .rnd _ _ | .drw _ _ _ | .ldVxDT _ => false
  | .ldVxK _ | .ldDTVx _ | .ldSTVx _ | .addIVx _ | .ldFVx _ | .ldBVx _ | .storeRegs _ | .loadRegs _ => false

/-- The instructions that sample an input of the step (60_exceptions R334, R337). -/
def Instr.samplesInput (i : Instr) : Bool :=
  match i with
  | .rnd _ _ | .skp _ | .sknp _ | .ldVxK _ => true
  | .cls | .ret | .jp _ | .call _ | .seImm _ _ | .sneImm _ _ | .seReg _ _ | .ldImm _ _ | .addImm _ _ => false
  | .ldReg _ _ | .orReg _ _ | .andReg _ _ | .xorReg _ _ | .addReg _ _ | .subReg _ _ | .shr _ _ => false
  | .subnReg _ _ | .shl _ _ | .sneReg _ _ | .ldI _ | .jpV0 _ | .drw _ _ _ | .ldVxDT _ | .ldDTVx _ => false
  | .ldSTVx _ | .addIVx _ | .ldFVx _ | .ldBVx _ | .storeRegs _ | .loadRegs _ => false

namespace Machine

/-- The memory an instruction writes, as a base and a length, `none` for one that writes none (20_memory R63): the
addresses are those its meaning uses. -/
def storeRange (i : Instr) (s : State) : Option (Nat × Nat) :=
  match i with
  | .cls => some (s.params.fbBase, fbBytes)
  | .call _ => some (s.params.slotAddr (s.sp.toNat - 1), 2)
  | .drw _ _ _ => some (s.params.fbBase, fbBytes)
  | .ldBVx _ => some (s.ea, 3)
  | .storeRegs x => some (s.ea, x.val + 1)
  | .ret | .jp _ | .seImm _ _ | .sneImm _ _ | .seReg _ _ | .ldImm _ _ | .addImm _ _ | .ldReg _ _ => none
  | .orReg _ _ | .andReg _ _ | .xorReg _ _ | .addReg _ _ | .subReg _ _ | .shr _ _ | .subnReg _ _ | .shl _ _ => none
  | .sneReg _ _ | .ldI _ | .jpV0 _ | .rnd _ _ | .skp _ | .sknp _ | .ldVxDT _ | .ldVxK _ | .ldDTVx _ => none
  | .ldSTVx _ | .addIVx _ | .ldFVx _ | .loadRegs _ => none

/-- Whether an instruction sets `dirty` (10_state R32): `00E0` and `dxyn` always, `fx33` and `fx55` when a byte they
store lies in the framebuffer region. -/
def setsDirty (i : Instr) (s : State) : Bool :=
  match i with
  | .cls => true
  | .drw _ _ _ => true
  | .ldBVx _ => s.params.touchesFB s.ea 3
  | .storeRegs x => s.params.touchesFB s.ea (x.val + 1)
  | .ret | .jp _ | .call _ | .seImm _ _ | .sneImm _ _ | .seReg _ _ | .ldImm _ _ | .addImm _ _ | .ldReg _ _ => false
  | .orReg _ _ | .andReg _ _ | .xorReg _ _ | .addReg _ _ | .subReg _ _ | .shr _ _ | .subnReg _ _ | .shl _ _ => false
  | .sneReg _ _ | .ldI _ | .jpV0 _ | .rnd _ _ | .skp _ | .sknp _ | .ldVxDT _ | .ldVxK _ | .ldDTVx _ => false
  | .ldSTVx _ | .addIVx _ | .ldFVx _ | .loadRegs _ => false

/-- Whether a set bit of the sprite of `dxyn` lands on the pixel (px, py): row `r` and column `c` of the sprite, the
start coordinates taken modulo the screen, and each pixel's too under `Wrap` (42_display R202). -/
def State.spriteCovers (s : State) (x y : Reg) (n : Fin 16) (px py : Nat) : Prop :=
  ∃ r c : Nat, r < n.val ∧ c < 8 ∧ (s.mem.read (s.ea + r)).getLsbD (7 - c) = true ∧
    match s.params.drawEdge with
    | .wrap => ((s.getV x).toNat % 64 + c) % 64 = px ∧ ((s.getV y).toNat % 32 + r) % 32 = py
    | .clip => (s.getV x).toNat % 64 + c = px ∧ (s.getV y).toNat % 32 + r = py

/-- An opcode of `i` matches the row with this pattern and mask, and decodes to `i` (30_encoding R96). -/
def encodesAs (i : Instr) (pattern mask : Word) : Prop :=
  encodeWord i &&& mask = pattern ∧ decodeWord (encodeWord i) = some i

end Machine

end Sys2Proof
end

