-- ==== Sys2Proof/WellFormed.lean ====
section
/-! DEFINITION. Well-formedness checks. An instruction needs none: each operand's type has exactly the width of its
field (30_encoding R94: a register number or height is a `Fin 16`, `kk` a byte, `nnn` 12 bits), so every term of
`Instr` is an instruction with an encoding. What has checks is a machine's parameters and its reserved image
(00_scope R6). -/

namespace Sys2Proof

/-- `STACK_SLOTS >= 1` (00_scope R6). -/
def Params.hasSlots (p : Params) : Bool := decide (1 ≤ p.stackSlots)

/-- SP is held in 8 bits and covers 0 to `STACK_SLOTS` (10_state R28; DEDUCED, notes/assumptions/9.md). -/
def Params.slotsFitSp (p : Params) : Bool := decide (p.stackSlots ≤ 255)

/-- `USER_SIZE >= 2` (00_scope R6). -/
def Params.hasUserRegion (p : Params) : Bool := decide (2 ≤ p.userSize)

/-- `FONT_BASE + 16 * GLYPH_STRIDE <= MEM_SIZE` (00_scope R6). -/
def Params.fontInMemory (p : Params) : Bool := decide (p.fontBase + 16 * p.glyphStride ≤ memSize)

/-- `GLYPH_STRIDE >= 1` (00_scope R6). -/
def Params.hasStride (p : Params) : Bool := decide (1 ≤ p.glyphStride)

/-- All the constraints on the parameters (00_scope R6; 10_state R28). -/
def Params.wf (p : Params) : Bool :=
  p.hasSlots && p.slotsFitSp && p.hasUserRegion && p.fontInMemory && p.hasStride

/-- `RESERVED_IMAGE` has exactly `RESERVED_SIZE` bytes (00_scope R6). -/
def reservedImageWf (image : List Byte) : Bool := image.length == 0x200

end Sys2Proof
end

