-- ==== Sys2Proof/Machine/HostOps.lean ====
section
/-! DEFINITION. The host's operations on the core (60_exceptions R320, R330, R339, R340; 70_reset R350, R351) and their
one total order (20_memory R70). -/

namespace Sys2Proof.Machine

/-! ## Construction -/

/-- The entries of an image placed from address `a` on, in canonical form. -/
def imageCells : Nat → List Byte → Memory
  | _, [] => []
  | a, b :: bs => if b = Memory.unlisted then imageCells (a + 1) bs else (a, b) :: imageCells (a + 1) bs

/-- A newly constructed core with any parameters and any RESERVED_IMAGE (10_state R36; 70_reset R350; decisions D3,
D4). -/
def State.construct (p : Params) (image : List Byte) : State :=
  { State.reset with sp := trunc8 p.stackSlots, mem := imageCells 0 image, params := p }

/-! ## The operations -/

/-- `max(b - 1, 0)`: a timer's tick (60_exceptions R320). -/
def tick8 (b : Byte) : Byte := if b = 0#8 then b else b - 1#8

/-- `tick_timers()` (60_exceptions R320). -/
def State.tickTimers (s : State) : State := { s with dt := tick8 s.dt, st := tick8 s.st }

/-- `skip()` (60_exceptions R340; decision D7). -/
def State.skip (s : State) : State := s.setPc (s.pc + 2#16)

/-- `load(bytes, length)` (70_reset R351; decision D22). -/
def State.load (s : State) (image : List Byte) : Outcome :=
  if image.length = 0 ∨ image.length > s.params.userSize then .fault .programTooLarge
  else .next (s.setMem (s.mem.writeBytes userBase image))

/-! ## The accessors (60_exceptions R339; decision D23) -/

/-- `pc()`. -/
def State.pcOf (s : State) : Word := s.pc

/-- `sp()`. -/
def State.spOf (s : State) : Byte := s.sp

/-- `i()`. -/
def State.iOf (s : State) : Word := s.i

/-- `dt()`. -/
def State.dtOf (s : State) : Byte := s.dt

/-- `st()`. -/
def State.stOf (s : State) : Byte := s.st

/-- `v(r)`. -/
def State.vOf (s : State) (r : Reg) : Byte := s.getV r

/-- `byte(a)`: no value for a > 0xFFF. -/
def State.byteOf (s : State) (a : Nat) : Option Byte := if a ≤ 0xFFF then some (s.mem.read a) else none

/-- `word(a)`: big-endian, no value for a > 0xFFE. -/
def State.wordOf (s : State) (a : Nat) : Option Word := if a ≤ 0xFFE then some (s.mem.readWord a) else none

/-- `stack_empty()`. -/
def State.stackEmpty (s : State) : Bool := s.sp.toNat == s.params.stackSlots

/-- `peek()`: no value when the stack is empty (or SP is out of range, notes/assumptions/8.md). -/
def State.peek (s : State) : Option Word := if s.popFault = none then some s.stackTop else none

/-! ## The host's moves in one order -/

/-- The moves of 60_exceptions R330 that change the core, and the key events, which do not. -/
inductive HostOp where
  /-- `step()`, with what the collaborators answer during it (00_scope R13). -/
  | step (inp : Inputs)
  /-- `tick_timers()`. -/
  | tick
  /-- `load(bytes, length)`. -/
  | load (image : List Byte)
  /-- `skip()`. -/
  | skip
  /-- Key down or key up: nothing in the core changes (60_exceptions R334). -/
  | key (k : Key) (down : Bool)
  deriving DecidableEq, Repr

/-- What one move of the host does (60_exceptions R330). -/
def hostStep (op : HostOp) (s : State) : Outcome :=
  match op with
  | .step inp => step { s with inputs := [inp] }
  | .tick => .next s.tickTimers
  | .load image => s.load image
  | .skip => .next s.skip
  | .key _ _ => .next s

/-- The state the next move starts from: a faulting operation leaves the state as it was (60_exceptions R307, R313). -/
def State.afterOp (s : State) : Outcome → State
  | .next t => t
  | .fault _ => s
  | .refused _ => s

/-- The moves of the host in order (20_memory R70; 60_exceptions R341). -/
def hostRun : List HostOp → State → State
  | [], s => s
  | op :: ops, s => hostRun ops (s.afterOp (hostStep op s))

/-- The reference Keypad Source's `press`: the lowest key held (decision D10; not normative, for simulation). -/
def referencePress (held : Vector Bool 16) : Option Key := (List.finRange 16).find? fun k => held.get k

end Sys2Proof.Machine
end

