-- ==== Sys2Proof/Safety.lean ====
section
/-! DEFINITION. What holds at every instruction boundary (10_state R35), and what a run without a fault is. -/

namespace Sys2Proof.Machine

/-- The invariant of an instruction boundary: SP in [0, STACK_SLOTS] and `dirty` false (10_state R35), the parameters
within their constraints (00_scope R6), memory in canonical form. The register widths of R35 are the fields' types. -/
structure State.Inv (s : State) : Prop where
  /-- 10_state R35.1. -/
  spInRange : s.sp.toNat ≤ s.params.stackSlots
  /-- 10_state R35.2. -/
  notDirty : s.dirty = false
  /-- 00_scope R6. -/
  paramsWf : s.params.wf = true
  /-- The canonical form of memory. -/
  memWf : s.mem.wf

/-- The run of `k` steps from `s` meets no fault (60_exceptions R300). -/
def runsWithoutFault (k : Nat) (s : State) : Prop := ∃ t, Sys2Proof.core.run k s = .next t

/-- A program that has reached a jump to itself, the ISA's idle loop (60_exceptions R344). -/
def idles (s : State) : Prop := s.fetchable = true ∧ decodeWord (s.mem.readWord s.pc.toNat) = some (.jp (s.pc.setWidth 12))

end Sys2Proof.Machine
end

