-- ==== Sys2Proof/Certificates/Slice0/Obligations.lean ====
section
/-! DEFINITION. The statements for the provers, each a clause of the spec's rules about the model. In the exec
statements the state `s` is the one after the fetch, so `s.pc` is A + 2 (30_encoding R92). -/

open Sys2Proof Sys2Proof.Machine

/-! ## Encoding -/

/-- 30_encoding R93 to R96: decoding the bytes of any instruction gives it back and leaves the bytes after it. -/
def Obligations.DecodeEncodeRoundTrip : Prop :=
  ∀ (i : Instr) (rest : List Byte), decode (encode i ++ rest) = .ok (i, rest)

/-- 30_encoding R94, R100: an opcode that decodes is the encoding of what it decodes to, so no bit is dropped. -/
def Obligations.EncodeDecodeRoundTrip : Prop :=
  ∀ (op : Word) (i : Instr), decodeWord op = some i → encodeWord i = op

/-- 30_encoding R100: either exactly one row of the opcode map matches an opcode and it decodes to an instruction of
that row, or none does and it is illegal. -/
def Obligations.OneRowOrIllegal : Prop :=
  ∀ op : Word,
    (∃ i, decodeWord op = some i ∧ opcodeRow i ∈ opcodeMap ∧ (opcodeRow i).hits op = true ∧
      ∀ r ∈ opcodeMap, r.hits op = true → r = opcodeRow i) ∨
    (decodeWord op = none ∧ ∀ r ∈ opcodeMap, r.hits op = false)

/-- 30_encoding R90: every instruction is one 16-bit opcode in two bytes, high byte first, and a decoder consumes
exactly two bytes, whatever follows them. -/
def Obligations.DecoderConsumesTwoBytes : Prop :=
  (∀ i : Instr, (encode i).length = 2 ∧ encode i = [highByte (encodeWord i), lowByte (encodeWord i)]) ∧
  ∀ (bytes rest : List Byte) (i : Instr), decode bytes = .ok (i, rest) ↔
    ∃ hi lo : Byte, bytes = hi :: lo :: rest ∧ decodeWord (BitVec.ofNat 16 (hi.toNat * 256 + lo.toNat)) = some i

/-- Words written out from the patterns of 30_encoding R96, one or more a family. -/
def Obligations.SampleWordsDecode : Prop :=
  decodeWord 0x00E0#16 = some .cls ∧ decodeWord 0x2ABC#16 = some (.call 0xABC#12) ∧
  decodeWord 0x3A42#16 = some (.seImm 10 0x42#8) ∧ decodeWord 0x812E#16 = some (.shl 1 2) ∧
  decodeWord 0xCF5A#16 = some (.rnd 15 0x5A#8) ∧ decodeWord 0xD12F#16 = some (.drw 1 2 15) ∧
  decodeWord 0xF355#16 = some (.storeRegs 3) ∧ decodeWord 0xE4A1#16 = some (.sknp 4) ∧
  decodeWord 0x0123#16 = none ∧ decodeWord 0x5121#16 = none ∧ decodeWord 0x8128#16 = none ∧
  decodeWord 0xF1FF#16 = none

/-! ## Register moves and ALU -/

/-- 41_register_alu R161, R163: `6xkk` and `8xy0` write V[x] and nothing else. -/
def Obligations.RegisterLoads : Prop :=
  (∀ x kk s, exec (.ldImm x kk) s = .next { s with v := s.v.set x.val kk }) ∧
  (∀ x y s, exec (.ldReg x y) s = .next { s with v := s.v.set x.val s.v[y.val] }) ∧
  (∀ x kk, encodesAs (.ldImm x kk) 0x6000#16 0xF000#16) ∧ ∀ x y, encodesAs (.ldReg x y) 0x8000#16 0xF00F#16

/-- 41_register_alu R162: `7xkk` adds modulo 2^8 and changes no flag. -/
def Obligations.AddImmediateWraps : Prop :=
  (∀ x kk s, exec (.addImm x kk) s =
    .next { s with v := s.v.set x.val (BitVec.ofNat 8 ((s.v[x.val].toNat + kk.toNat) % 256)) }) ∧
  ∀ x kk, encodesAs (.addImm x kk) 0x7000#16 0xF000#16

/-- 41_register_alu R164 to R166: the logic instructions write V[x] alone; that VF stays is the spec's decision D26
(notes/assumptions/22.md). -/
def Obligations.LogicWritesVxAlone : Prop :=
  (∀ x y s, exec (.orReg x y) s = .next { s with v := s.v.set x.val (s.v[x.val] ||| s.v[y.val]) }) ∧
  (∀ x y s, exec (.andReg x y) s = .next { s with v := s.v.set x.val (s.v[x.val] &&& s.v[y.val]) }) ∧
  (∀ x y s, exec (.xorReg x y) s = .next { s with v := s.v.set x.val (s.v[x.val] ^^^ s.v[y.val]) }) ∧
  (∀ x y, encodesAs (.orReg x y) 0x8001#16 0xF00F#16) ∧ (∀ x y, encodesAs (.andReg x y) 0x8002#16 0xF00F#16) ∧
  ∀ x y, encodesAs (.xorReg x y) 0x8003#16 0xF00F#16

/-- 41_register_alu R167: the sum in V[x], then the carry in VF, both from the operands' old values. -/
def Obligations.AddWritesSumThenCarry : Prop :=
  (∀ x y s, exec (.addReg x y) s =
    .next { s with v := (s.v.set x.val (s.v[x.val] + s.v[y.val])).set 15
                     (if 255 < s.v[x.val].toNat + s.v[y.val].toNat then 1#8 else 0#8) }) ∧
  ∀ x y, encodesAs (.addReg x y) 0x8004#16 0xF00F#16

/-- 41_register_alu R168, R170: the difference in V[x], then the strict not-borrow in VF (0 for equal operands). -/
def Obligations.SubtractWritesDifferenceThenNotBorrow : Prop :=
  (∀ x y s, exec (.subReg x y) s =
    .next { s with v := (s.v.set x.val (s.v[x.val] - s.v[y.val])).set 15
                     (if s.v[y.val].toNat < s.v[x.val].toNat then 1#8 else 0#8) }) ∧
  (∀ x y s, exec (.subnReg x y) s =
    .next { s with v := (s.v.set x.val (s.v[y.val] - s.v[x.val])).set 15
                     (if s.v[x.val].toNat < s.v[y.val].toNat then 1#8 else 0#8) }) ∧
  (∀ x y, encodesAs (.subReg x y) 0x8005#16 0xF00F#16) ∧ ∀ x y, encodesAs (.subnReg x y) 0x8007#16 0xF00F#16

/-- 41_register_alu R169, R171 and 30_encoding R97: one bit is shifted out of V[x] into VF, whatever y is. -/
def Obligations.ShiftWritesResultThenBitOut : Prop :=
  (∀ x y s, exec (.shr x y) s =
    .next { s with v := (s.v.set x.val (s.v[x.val] >>> 1)).set 15 (s.v[x.val] &&& 1#8) }) ∧
  (∀ x y s, exec (.shl x y) s =
    .next { s with v := (s.v.set x.val (s.v[x.val] <<< 1)).set 15 (s.v[x.val] >>> 7) }) ∧
  (∀ x y, encodesAs (.shr x y) 0x8006#16 0xF00F#16) ∧ ∀ x y, encodesAs (.shl x y) 0x800E#16 0xF00F#16

/-- 41_register_alu R172: V[x] gets the step's random byte masked by kk. Where State lists the step's inputs the byte is
the listed one (the model's own convention, notes/assumptions/1.md). -/
def Obligations.RandomByteIsMasked : Prop :=
  (∀ x kk s, exec (.rnd x kk) s = .next { s with v := s.v.set x.val (s.input.rnd &&& kk) }) ∧
  (∀ (s : State) inp rest, s.inputs = inp :: rest → s.input = inp) ∧
  ∀ x kk, encodesAs (.rnd x kk) 0xC000#16 0xF000#16

/-! ## Control transfer -/

/-- 40_control R122, R128: `1nnn` jumps to nnn, `bnnn` to `(nnn + V0) & 0xFFF`, and nothing else changes. -/
def Obligations.JumpsSetPc : Prop :=
  (∀ nnn s, exec (.jp nnn) s = .next { s with pc := BitVec.ofNat 16 nnn.toNat }) ∧
  (∀ nnn s, exec (.jpV0 nnn) s =
    .next { s with pc := BitVec.ofNat 16 (nnn.toNat + s.v[0].toNat) &&& 0x0FFF#16 }) ∧
  (∀ nnn, encodesAs (.jp nnn) 0x1000#16 0xF000#16) ∧ ∀ nnn, encodesAs (.jpV0 nnn) 0xB000#16 0xF000#16

/-- 40_control R124 to R127: a skip adds 2 to PC exactly when its condition holds, and nothing else changes. -/
def Obligations.SkipsAddTwoWhenConditionHolds : Prop :=
  (∀ x kk s, exec (.seImm x kk) s = .next { s with pc := if s.v[x.val] = kk then s.pc + 2#16 else s.pc }) ∧
  (∀ x kk s, exec (.sneImm x kk) s = .next { s with pc := if s.v[x.val] ≠ kk then s.pc + 2#16 else s.pc }) ∧
  (∀ x y s, exec (.seReg x y) s =
    .next { s with pc := if s.v[x.val] = s.v[y.val] then s.pc + 2#16 else s.pc }) ∧
  (∀ x y s, exec (.sneReg x y) s =
    .next { s with pc := if s.v[x.val] ≠ s.v[y.val] then s.pc + 2#16 else s.pc }) ∧
  (∀ x kk, encodesAs (.seImm x kk) 0x3000#16 0xF000#16) ∧ (∀ x kk, encodesAs (.sneImm x kk) 0x4000#16 0xF000#16) ∧
  (∀ x y, encodesAs (.seReg x y) 0x5000#16 0xF00F#16) ∧ ∀ x y, encodesAs (.sneReg x y) 0x9000#16 0xF00F#16

/-- 40_control R120, R123: on a stack that is not full a call decrements SP, stores PC in the new top slot, high byte
first, jumps, and changes no other byte and no other field. Slot place and byte order are the spec's decisions D1 and D2
(notes/assumptions/13.md). -/
def Obligations.CallPushesReturnAddress : Prop :=
  ∀ nnn s, s.params.wf = true → 0 < s.sp.toNat → s.sp.toNat ≤ s.params.stackSlots →
    ∃ t, exec (.call nnn) s = .next t ∧
      t = { s with pc := BitVec.ofNat 16 nnn.toNat, sp := s.sp - 1#8, mem := t.mem } ∧
      t.mem.read (0x1000 - 2 * s.params.stackSlots + 2 * (s.sp.toNat - 1)) = highByte s.pc ∧
      t.mem.read (0x1000 - 2 * s.params.stackSlots + 2 * (s.sp.toNat - 1) + 1) = lowByte s.pc ∧
      ∀ a, a < 0x1000 - 2 * s.params.stackSlots + 2 * (s.sp.toNat - 1) ∨
        0x1000 - 2 * s.params.stackSlots + 2 * (s.sp.toNat - 1) + 2 ≤ a → t.mem.read a = s.mem.read a

/-- 40_control R120, R121: on a stack that is not empty a return sets PC to the top slot's value and increments SP; the
slot keeps its bytes. Slot place and byte order are the spec's decisions D1 and D2 (notes/assumptions/13.md). -/
def Obligations.ReturnPopsReturnAddress : Prop :=
  ∀ s : State, s.sp.toNat < s.params.stackSlots →
    exec .ret s = .next { s with
      pc := s.mem.readWord (0x1000 - 2 * s.params.stackSlots + 2 * s.sp.toNat), sp := s.sp + 1#8 }

/-- 60_exceptions R304: StackOverflow is raised by `2nnn` exactly when SP is 0, and by no other instruction. -/
def Obligations.StackOverflowExactlyWhenFull : Prop :=
  (∀ nnn s, exec (.call nnn) s = .fault .stackOverflow ↔ s.sp.toNat = 0) ∧
  ∀ i s, exec i s = .fault .stackOverflow → ∃ nnn, i = .call nnn

/-- 60_exceptions R305: StackUnderflow is raised by `00EE` exactly when SP is STACK_SLOTS, and by no other
instruction. -/
def Obligations.StackUnderflowExactlyWhenEmpty : Prop :=
  (∀ s, exec .ret s = .fault .stackUnderflow ↔ s.sp.toNat = s.params.stackSlots) ∧
  ∀ i s, exec i s = .fault .stackUnderflow → i = .ret

/-- 40_control R129: a return that finds the call's slot as the call left it goes to the address after the call and
restores SP. -/
def Obligations.CallThenReturnRestores : Prop :=
  ∀ nnn s, s.params.wf = true → 0 < s.sp.toNat → s.sp.toNat ≤ s.params.stackSlots →
    ∃ t, exec (.call nnn) s = .next t ∧
      ∀ u : State, u.params = t.params → u.sp = t.sp →
        u.mem.readWord (t.params.slotAddr t.sp.toNat) = t.mem.readWord (t.params.slotAddr t.sp.toNat) →
        ∃ w, exec .ret u = .next w ∧ w.pc = s.pc ∧ w.sp = s.sp

/-! ## Index register and memory transfers -/

/-- 43_index_memory R231, R232: `annn` loads I, `fx1e` adds V[x] and masks to 12 bits; no flag and nothing else
changes. -/
def Obligations.IndexLoadsAndAdds : Prop :=
  (∀ nnn s, exec (.ldI nnn) s = .next { s with i := BitVec.ofNat 16 nnn.toNat }) ∧
  (∀ x s, exec (.addIVx x) s =
    .next { s with i := (s.i + BitVec.ofNat 16 s.v[x.val].toNat) &&& 0x0FFF#16 }) ∧
  (∀ nnn, encodesAs (.ldI nnn) 0xA000#16 0xF000#16) ∧ ∀ x, encodesAs (.addIVx x) 0xF01E#16 0xF0FF#16

/-- 43_index_memory R233: I gets the glyph address of V[x]'s low nibble, which lies inside memory for parameters that
meet 00_scope R6. The address formula is the spec's decision D12 (notes/assumptions/19.md). -/
def Obligations.GlyphAddressLoads : Prop :=
  ∀ x s, s.params.wf = true →
    ∃ t, exec (.ldFVx x) s = .next t ∧ t = { s with i := t.i } ∧
      t.i.toNat = s.params.fontBase + s.params.glyphStride * (s.v[x.val].toNat % 16) ∧ t.i.toNat < 0x1000

/-- 43_index_memory R234: the three digits land at I & 0xFFF, every other byte and field stays, and `dirty` is set when
one lands in the framebuffer region. The masked base and the `dirty` rule are the spec's decisions D8 and D17
(notes/assumptions/16.md and 21.md). -/
def Obligations.BcdStoresDigits : Prop :=
  ∀ x s, s.i.toNat % 0x1000 + 3 ≤ 0x1000 →
    ∃ t, exec (.ldBVx x) s = .next t ∧ t = { s with mem := t.mem, dirty := t.dirty } ∧
      (t.mem.read (s.i.toNat % 0x1000)).toNat = s.v[x.val].toNat / 100 ∧
      (t.mem.read (s.i.toNat % 0x1000 + 1)).toNat = s.v[x.val].toNat / 10 % 10 ∧
      (t.mem.read (s.i.toNat % 0x1000 + 2)).toNat = s.v[x.val].toNat % 10 ∧
      (∀ a, a < s.i.toNat % 0x1000 ∨ s.i.toNat % 0x1000 + 3 ≤ a → t.mem.read a = s.mem.read a) ∧
      (t.dirty = true ↔ s.dirty = true ∨ ∃ k, k < 3 ∧ s.params.fbBase ≤ s.i.toNat % 0x1000 + k ∧
        s.i.toNat % 0x1000 + k < s.params.fbBase + 256)

/-- 43_index_memory R237: the digits of a byte are decimal digits and make up its value. -/
def Obligations.BcdDigitsMakeUpValue : Prop :=
  ∀ v : Byte, ∃ h t o : Byte, bcdDigits v = [h, t, o] ∧ 100 * h.toNat + 10 * t.toNat + o.toNat = v.toNat ∧
    h.toNat ≤ 2 ∧ t.toNat ≤ 9 ∧ o.toNat ≤ 9 ∧ v.toNat / 10 / 10 = h.toNat

/-- 43_index_memory R235: V0 to Vx land at I & 0xFFF upward, every other byte and field stays, I advances by x + 1 in 16
bits, and `dirty` is set when a byte lands in the framebuffer region. The masked base, I's width and the `dirty` rule
are the spec's decisions D8, D9 and D17 (notes/assumptions/16.md and 21.md). -/
def Obligations.BlockStoreWritesRegisters : Prop :=
  ∀ x s, s.i.toNat % 0x1000 + (x.val + 1) ≤ 0x1000 →
    ∃ t, exec (.storeRegs x) s = .next t ∧
      t = { s with mem := t.mem, dirty := t.dirty, i := s.i + BitVec.ofNat 16 (x.val + 1) } ∧
      (∀ r : Reg, r ≤ x → t.mem.read (s.i.toNat % 0x1000 + r.val) = s.v[r.val]) ∧
      (∀ a, a < s.i.toNat % 0x1000 ∨ s.i.toNat % 0x1000 + (x.val + 1) ≤ a → t.mem.read a = s.mem.read a) ∧
      (t.dirty = true ↔ s.dirty = true ∨ ∃ k, k ≤ x.val ∧ s.params.fbBase ≤ s.i.toNat % 0x1000 + k ∧
        s.i.toNat % 0x1000 + k < s.params.fbBase + 256)

/-- 43_index_memory R236: V0 to Vx get the bytes from I & 0xFFF upward, the other registers, memory and the other
fields stay, and I advances by x + 1 in 16 bits. The masked base and I's width are the spec's decisions D8 and D9
(notes/assumptions/16.md). -/
def Obligations.BlockLoadReadsRegisters : Prop :=
  ∀ x s, s.i.toNat % 0x1000 + (x.val + 1) ≤ 0x1000 →
    ∃ t, exec (.loadRegs x) s = .next t ∧ t = { s with v := t.v, i := s.i + BitVec.ofNat 16 (x.val + 1) } ∧
      ∀ r : Reg, t.v[r.val] = if r ≤ x then s.mem.read (s.i.toNat % 0x1000 + r.val) else s.v[r.val]

/-- 43_index_memory R238: a block load of what a block store wrote, with I back at the store's base, restores V0 to Vx
whatever the registers held in between. -/
def Obligations.BlockTransferRoundTrip : Prop :=
  ∀ x s, s.i.toNat % 0x1000 + (x.val + 1) ≤ 0x1000 →
    ∃ t, exec (.storeRegs x) s = .next t ∧
      ∀ u : State, u.mem = t.mem → u.i.toNat % 0x1000 = s.i.toNat % 0x1000 →
        ∃ w, exec (.loadRegs x) u = .next w ∧ ∀ r : Reg, r ≤ x → w.v[r.val] = s.v[r.val]

/-- 20_memory R67: an I-based instruction faults exactly when its range passes the end of memory, with the operation,
base and length of 60_exceptions R303. The masked base, and the check of `dxyn` and `fx33`, are the spec's decisions D8
and D30 (notes/assumptions/16.md and 24.md). -/
def Obligations.RangeFaultsExactlyPastMemory : Prop :=
  ∀ s : State,
    (∀ x y n, exec (.drw x y n) s = .fault (.memoryRange .draw (s.i &&& 0x0FFF#16) n.val) ↔
      0x1000 < s.i.toNat % 0x1000 + n.val) ∧
    (∀ x, exec (.ldBVx x) s = .fault (.memoryRange .bcd (s.i &&& 0x0FFF#16) 3) ↔
      0x1000 < s.i.toNat % 0x1000 + 3) ∧
    (∀ x, exec (.storeRegs x) s = .fault (.memoryRange .storeRegs (s.i &&& 0x0FFF#16) (x.val + 1)) ↔
      0x1000 < s.i.toNat % 0x1000 + (x.val + 1)) ∧
    ∀ x, exec (.loadRegs x) s = .fault (.memoryRange .loadRegs (s.i &&& 0x0FFF#16) (x.val + 1)) ↔
      0x1000 < s.i.toNat % 0x1000 + (x.val + 1)

/-! ## Display -/

/-- 42_display R201: `00E0` clears the framebuffer, sets `dirty` and changes nothing else; a step that runs it always
presents the cleared frame. -/
def Obligations.ClearZeroesFramebuffer : Prop :=
  (∀ s : State, ∃ t, exec .cls s = .next t ∧ t = { s with mem := t.mem, dirty := true } ∧
    (∀ a, s.params.fbBase ≤ a → a < s.params.fbBase + 256 → t.mem.read a = 0#8) ∧
    ∀ a, a < s.params.fbBase ∨ s.params.fbBase + 256 ≤ a → t.mem.read a = s.mem.read a) ∧
  (∀ s : State, s.fetchable = true → s.mem.readWord s.pc.toNat = 0x00E0#16 →
    ∃ t, step s = .next t ∧
      t.presents = { width := 64, height := 32, bytes := List.replicate 256 0#8 } :: s.presents) ∧
  encodesAs .cls 0x00E0#16 0xFFFF#16

/-- 42_display R202: with its sprite inside memory a draw flips exactly the pixels the sprite's set bits land on, sets
`dirty`, changes no byte outside the framebuffer, and with DRAW_COLLISION leaves VF 1 exactly when a flipped pixel was
on; every other register and field stays. Pixel order, collision, edges and reading the sprite first are the spec's
decisions D13 to D16 (notes/assumptions/20.md). -/
def Obligations.DrawFlipsCoveredPixels : Prop :=
  ∀ x y n s, s.i.toNat % 0x1000 + n.val ≤ 0x1000 →
    ∃ t, exec (.drw x y n) s = .next t ∧ t = { s with v := t.v, mem := t.mem, dirty := true } ∧
      (∀ px py, px < 64 → py < 32 →
        (t.mem.pixel s.params px py = true ↔
          (s.mem.pixel s.params px py = true ↔ ¬ s.spriteCovers x y n px py))) ∧
      (∀ a, a < s.params.fbBase ∨ s.params.fbBase + 256 ≤ a → t.mem.read a = s.mem.read a) ∧
      (∀ r : Reg, r ≠ 15 → t.v[r.val] = s.v[r.val]) ∧
      (s.params.drawCollision = false → t.v[15] = s.v[15]) ∧
      (s.params.drawCollision = true → t.v[15] = 0#8 ∨ t.v[15] = 1#8) ∧
      (s.params.drawCollision = true → (t.v[15] = 1#8 ↔
        ∃ px py, px < 64 ∧ py < 32 ∧ s.spriteCovers x y n px py ∧ s.mem.pixel s.params px py = true))

/-- 42_display R203: the byte algorithm and the pixel rule of R202 leave the same memory, under Wrap and under Clip.
Pixel order, edges and reading the sprite first are the spec's decisions D13, D15 and D16
(notes/assumptions/20.md). -/
def Obligations.DrawMatchesByteAlgorithm : Prop :=
  ∀ x y n s, s.mem.wf → s.i.toNat % 0x1000 + n.val ≤ 0x1000 →
    ∃ t, exec (.drw x y n) s = .next t ∧
      t.mem = composeRows s.params (s.v[x.val].toNat % 64) (s.v[y.val].toNat % 32) 0
        (s.mem.readBytes (s.i.toNat % 0x1000) n.val) s.mem

/-- 42_display R204.1 and R204.2: a second draw with the same coordinates, I and sprite bytes restores memory, and with
DRAW_COLLISION sets VF to 1 exactly when a pixel the sprite covers was off before the first. -/
def Obligations.DrawTwiceRestores : Prop :=
  ∀ x y n s, s.mem.wf → s.i.toNat % 0x1000 + n.val ≤ 0x1000 → x ≠ 15 → y ≠ 15 →
    (∀ k, k < n.val → s.params.inFB (s.i.toNat % 0x1000 + k) = false) →
    ∃ t u, exec (.drw x y n) s = .next t ∧ exec (.drw x y n) t = .next u ∧ u.mem = s.mem ∧
      (s.params.drawCollision = true → (u.v[15] = 1#8 ↔
        ∃ px py, px < 64 ∧ py < 32 ∧ s.spriteCovers x y n px py ∧ s.mem.pixel s.params px py = false))

/-! ## Keypad and timers -/

/-- 44_timers_keypad R261, R262: a key skip adds 2 to PC exactly when the key of V[x]'s low nibble is, or is not, held.
The low nibble is the spec's decision D11 (notes/assumptions/18.md). -/
def Obligations.KeySkipsFollowHeldKeys : Prop :=
  (∀ x s, exec (.skp x) s = .next { s with
    pc := if s.input.held[s.v[x.val].toNat % 16] = true then s.pc + 2#16 else s.pc }) ∧
  ∀ x s, exec (.sknp x) s = .next { s with
    pc := if s.input.held[s.v[x.val].toNat % 16] = true then s.pc else s.pc + 2#16 }

/-- 44_timers_keypad R263 to R265: `fx07` reads DT, `fx15` writes DT, `fx18` writes ST, and nothing else changes. -/
def Obligations.TimerReadsAndWrites : Prop :=
  (∀ x s, exec (.ldVxDT x) s = .next { s with v := s.v.set x.val s.dt }) ∧
  (∀ x s, exec (.ldDTVx x) s = .next { s with dt := s.v[x.val] }) ∧
  (∀ x s, exec (.ldSTVx x) s = .next { s with st := s.v[x.val] }) ∧
  (∀ x, encodesAs (.ldVxDT x) 0xF007#16 0xF0FF#16) ∧ (∀ x, encodesAs (.ldDTVx x) 0xF015#16 0xF0FF#16) ∧
  ∀ x, encodesAs (.ldSTVx x) 0xF018#16 0xF0FF#16

/-- 44_timers_keypad R266: with a key pressed `fx0A` stores its number in V[x] and changes nothing else. -/
def Obligations.KeyWaitStoresPressedKey : Prop :=
  ∀ x k s, s.input.press = some k →
    exec (.ldVxK x) s = .next { s with v := s.v.set x.val (BitVec.ofNat 8 k.val) }

/-- 44_timers_keypad R266: with no key pressed a step that runs `fx0A` reports AwaitingKey and commits nothing, PC
included, so the next step fetches the same instruction; only the model's own fields move on. That it is a next state
with a `result` is the model's choice (notes/assumptions/2.md), the retry the spec's decision D10. -/
def Obligations.KeyWaitRetries : Prop :=
  ∀ x s, s.fetchable = true → decodeWord (s.mem.readWord s.pc.toNat) = some (.ldVxK x) → s.input.press = none →
    step s = .next { s with result := .awaitingKey, inputs := s.inputs.tail, draws := s.draws + 1 }

/-! ## The step as a whole -/

/-- 60_exceptions R331: a step runs the instruction at PC in the state whose PC is past it; a Continue commits, presents
when `dirty` is set and clears it; an AwaitingKey restores the state; a fault is the step's own. How inputs, results and
presents stand in State is the model's choice (notes/assumptions/1.md to 3.md). -/
def Obligations.StepRunsDecodedInstruction : Prop :=
  ∀ s i, s.fetchable = true → decodeWord (s.mem.readWord s.pc.toNat) = some i →
    (∀ t, exec i { s with pc := s.pc + 2#16, result := .continued } = .next t → t.result = .continued →
      step s = .next { t with
        presents := if t.dirty then
            { width := 64, height := 32, bytes := t.mem.readBytes t.params.fbBase 256 } :: t.presents
          else t.presents
        dirty := false, inputs := t.inputs.tail, draws := t.draws + 1 }) ∧
    (∀ t, exec i { s with pc := s.pc + 2#16, result := .continued } = .next t → t.result = .awaitingKey →
      step s = .next { s with result := .awaitingKey, inputs := s.inputs.tail, draws := s.draws + 1 }) ∧
    ∀ f, exec i { s with pc := s.pc + 2#16, result := .continued } = .fault f → step s = .fault f

/-- 30_encoding R91: a step whose PC is odd, below 0x200 or above 0xFFE ends with the Fetch fault, and only such a step
does. The check is the spec's decision D5 (notes/assumptions/14.md). -/
def Obligations.FetchFaultsExactlyOnBadPc : Prop :=
  ∀ s, step s = .fault (.memoryRange .fetch s.pc 2) ↔
    s.pc.toNat % 2 ≠ 0 ∨ s.pc.toNat < 0x200 ∨ 0xFFE < s.pc.toNat

/-- 60_exceptions R302: IllegalOpcode, with the word and its address, is the result of exactly the steps whose fetch
passes its check and whose word matches no row of the opcode map. -/
def Obligations.IllegalOpcodeExactlyOnNoRow : Prop :=
  ∀ (s : State) (op a : Word), step s = .fault (.illegalOpcode op a) ↔
    s.fetchable = true ∧ a = s.pc ∧ op = s.mem.readWord s.pc.toNat ∧
      ∀ r ∈ opcodeMap, op &&& r.mask ≠ r.pattern

/-- 60_exceptions R309: the faults each instruction can raise; every other instruction answers a next state. The last
disjunct of the two stack rows is the model's, for SP past STACK_SLOTS (notes/assumptions/8.md). -/
def Obligations.OwnFaultsPerInstruction : Prop :=
  ∀ (i : Instr) (s : State),
    match i with
    | .ret => (∃ t, exec i s = .next t) ∨ exec i s = .fault .stackUnderflow ∨
        (exec i s = .fault .stackPointerOutOfRange ∧ s.params.stackSlots < s.sp.toNat)
    | .call _ => (∃ t, exec i s = .next t) ∨ exec i s = .fault .stackOverflow ∨
        (exec i s = .fault .stackPointerOutOfRange ∧ s.params.stackSlots < s.sp.toNat)
    | .drw _ _ n => (∃ t, exec i s = .next t) ∨ exec i s = .fault (.memoryRange .draw (s.i &&& 0x0FFF#16) n.val)
    | .ldBVx _ => (∃ t, exec i s = .next t) ∨ exec i s = .fault (.memoryRange .bcd (s.i &&& 0x0FFF#16) 3)
    | .storeRegs x => (∃ t, exec i s = .next t) ∨
        exec i s = .fault (.memoryRange .storeRegs (s.i &&& 0x0FFF#16) (x.val + 1))
    | .loadRegs x => (∃ t, exec i s = .next t) ∨
        exec i s = .fault (.memoryRange .loadRegs (s.i &&& 0x0FFF#16) (x.val + 1))
    | _ => ∃ t, exec i s = .next t

/-- No step is refused: every instruction of the opcode map has its meaning (60_exceptions R300). -/
def Obligations.StepNeverRefuses : Prop := ∀ s r, step s ≠ .refused r

/-- The word placed by `withFetchWord` is the next instruction the step runs (notes/assumptions/11.md). -/
def Obligations.PlacedWordRunsNext : Prop :=
  ∀ (s : State) (i : Instr), step (s.withFetchWord 16 (encodeWord i).toNat) =
    (s.withFetchWord 16 (encodeWord i).toNat).settle
      (exec i { s.withFetchWord 16 (encodeWord i).toNat with
        pc := (s.withFetchWord 16 (encodeWord i).toNat).pc + 2#16, result := .continued })

/-! ## What instructions leave unchanged -/

/-- 10_state R22: an instruction writes no V register but those its row of the table names. -/
def Obligations.RegisterFrame : Prop :=
  ∀ i s t, exec i s = .next t → ∀ r : Reg, i.writesV r = false → t.v[r.val] = s.v[r.val]

/-- 20_memory R63: an instruction that stores changes no byte outside its range, computed as its meaning computes it,
and one that stores nothing changes no byte. -/
def Obligations.MemoryFrame : Prop :=
  ∀ i s t, exec i s = .next t →
    (storeRange i s = none → ∀ a, t.mem.read a = s.mem.read a) ∧
    ∀ base len, storeRange i s = some (base, len) →
      ∀ a, a < base ∨ base + len ≤ a → t.mem.read a = s.mem.read a

/-- 10_state R25, R27, R28, R30 to R33: I, SP, DT, ST, PC and `dirty` change only by the instructions that write them;
the parameters, the inputs and the presents change by none, the result only by a key wait. -/
def Obligations.SpecialRegisterFrame : Prop :=
  ∀ i s t, exec i s = .next t →
    (i.writesI = false → t.i = s.i) ∧
    ((∀ nnn, i ≠ .call nnn) → i ≠ .ret → t.sp = s.sp) ∧
    ((∀ x, i ≠ .ldDTVx x) → t.dt = s.dt) ∧
    ((∀ x, i ≠ .ldSTVx x) → t.st = s.st) ∧
    (i.branches = false → t.pc = s.pc) ∧
    (t.dirty = (s.dirty || setsDirty i s)) ∧
    t.params = s.params ∧ t.inputs = s.inputs ∧ t.draws = s.draws ∧ t.presents = s.presents ∧
    (t.result = s.result ∨ ∃ x, i = .ldVxK x)

/-- 10_state R25: a completed step of an instruction that does not branch advances PC by exactly 2. -/
def Obligations.NonBranchingStepAdvancesPcByTwo : Prop :=
  ∀ s t i, s.fetchable = true → decodeWord (s.mem.readWord s.pc.toNat) = some i → i.branches = false →
    step s = .next t → t.result = .continued → t.pc.toNat = s.pc.toNat + 2

/-- 60_exceptions R334 and R337: an instruction that does not sample an input does the same whatever the inputs are. -/
def Obligations.OnlySamplersSeeInputs : Prop :=
  ∀ i s (l : List Inputs) (d : Nat), i.samplesInput = false →
    (∀ t, exec i s = .next t → exec i { s with inputs := l, draws := d } = .next { t with inputs := l, draws := d }) ∧
    ∀ f, exec i s = .fault f → exec i { s with inputs := l, draws := d } = .fault f

/-- 10_state R31: no instruction reads ST: with another ST an instruction answers the same state with that ST, unless it
writes ST, and then the very same state. -/
def Obligations.NoInstructionReadsSoundTimer : Prop :=
  ∀ i s (b : Byte),
    (∀ f, exec i s = .fault f → exec i { s with st := b } = .fault f) ∧
    ∀ t, exec i s = .next t →
      ((∀ x, i ≠ .ldSTVx x) → exec i { s with st := b } = .next { t with st := b }) ∧
      ((∃ x, i = .ldSTVx x) → exec i { s with st := b } = .next t)

/-- 60_exceptions R335: from an instruction boundary (10_state R35) a completed step presents once, with the framebuffer
after it, exactly when its instruction set `dirty`, and an AwaitingKey step does not. The record of presents is the
model's (notes/assumptions/3.md). -/
def Obligations.StepPresentsExactlyWhenDirty : Prop :=
  ∀ s t i, s.Inv → s.fetchable = true → decodeWord (s.mem.readWord s.pc.toNat) = some i → step s = .next t →
    t.presents = if setsDirty i { s with pc := s.pc + 2#16, result := .continued } = true then
        { width := 64, height := 32, bytes := t.mem.readBytes t.params.fbBase 256 } :: s.presents
      else s.presents

/-! ## Reset and the host's operations -/

/-- 10_state R36: what State.reset holds. PC and SP are the source's; the zero registers and memory are the spec's
decisions D3 and D4 (notes/assumptions/6.md), the zero reserved region and the model's own fields the model's choice
(notes/assumptions/1.md to 5.md). -/
def Obligations.ResetState : Prop :=
  State.reset.pc = 0x0200#16 ∧ State.reset.sp.toNat = State.reset.params.stackSlots ∧
  (∀ r : Reg, State.reset.v[r.val] = 0#8) ∧ State.reset.i = 0#16 ∧ State.reset.dt = 0#8 ∧ State.reset.st = 0#8 ∧
  State.reset.dirty = false ∧ (∀ a, State.reset.mem.read a = 0#8) ∧ State.reset.params = Params.default

/-- 10_state R35 and R36: the state after reset meets the invariant of an instruction boundary. -/
def Obligations.ResetMeetsInvariant : Prop := State.reset.Inv

/-- 10_state R36 and 00_scope R6: a core constructed with any parameters within their constraints and any 512-byte
RESERVED_IMAGE meets the invariant, reads that image in the reserved region and 0 elsewhere, and starts with an empty
stack. The zeros are the spec's decisions D3 and D4 (notes/assumptions/6.md). -/
def Obligations.ConstructionMeetsInvariant : Prop :=
  ∀ (p : Params) (image : List Byte), p.wf = true → reservedImageWf image = true →
    (State.construct p image).Inv ∧ (State.construct p image).params = p ∧
    (State.construct p image).sp.toNat = p.stackSlots ∧ (State.construct p image).pc = 0x0200#16 ∧
    (∀ a, a < 0x200 → some ((State.construct p image).mem.read a) = image[a]?) ∧
    ∀ a, 0x200 ≤ a → (State.construct p image).mem.read a = 0#8

/-- 70_reset R353: a step before any load fetches 0x0000 at 0x200 and reports it illegal. It rests on the zero user
region, the spec's decision D4 (notes/assumptions/6.md). -/
def Obligations.StepBeforeLoadIsIllegal : Prop :=
  step State.reset = .fault (.illegalOpcode 0x0000#16 0x0200#16)

/-- 10_state R35 and 00_scope R6: every step keeps the invariant of an instruction boundary. -/
def Obligations.StepKeepsInvariant : Prop := ∀ s t, s.Inv → step s = .next t → t.Inv

/-- 10_state R35: the invariant holds at every boundary of every sequence of the host's moves (steps with any inputs,
ticks, loads, skips and key events; 60_exceptions R330), faults and key waits included, from any state that meets it.
The accessors answer no state and are no moves (notes/assumptions/10.md). -/
def Obligations.HostRunKeepsInvariant : Prop := ∀ (ops : List HostOp) (s : State), s.Inv → (hostRun ops s).Inv

/-- 60_exceptions R320: a tick decrements DT and ST by 1, floored at 0, and changes nothing else. -/
def Obligations.TickDecrementsTimers : Prop :=
  ∀ s : State, s.tickTimers = { s with dt := s.tickTimers.dt, st := s.tickTimers.st } ∧
    s.tickTimers.dt.toNat = s.dt.toNat - 1 ∧ s.tickTimers.st.toNat = s.st.toNat - 1

/-- 60_exceptions R340: `skip()` adds 2 to PC in 16 bits and changes nothing else. The operation is the spec's decision
D7 (notes/assumptions/15.md). -/
def Obligations.SkipAdvancesPc : Prop :=
  ∀ s : State, s.skip = { s with pc := BitVec.ofNat 16 ((s.pc.toNat + 2) % 65536) }

/-- 70_reset R351: `load` fails exactly on an empty image or one larger than the user region; otherwise it copies the
image to 0x200 upward and changes no other byte and no other field. Length 0 is the spec's decision D22
(notes/assumptions/23.md). -/
def Obligations.LoadCopiesImage : Prop :=
  ∀ (s : State) (image : List Byte), s.params.wf = true →
    (s.load image = .fault .programTooLarge ↔ image.length = 0 ∨ s.params.userSize < image.length) ∧
    (0 < image.length → image.length ≤ s.params.userSize →
      ∃ t, s.load image = .next t ∧ t = { s with mem := t.mem } ∧
        (∀ k, k < image.length → some (t.mem.read (0x200 + k)) = image[k]?) ∧
        ∀ a, a < 0x200 ∨ 0x200 + image.length ≤ a → t.mem.read a = s.mem.read a)

/-- 60_exceptions R339: bytes and big-endian words inside memory have values and those outside have none; the stack is
empty exactly at SP = STACK_SLOTS, and `peek` gives the top slot of a stack that is not. The details are the spec's
decision D23 (notes/assumptions/25.md). -/
def Obligations.AccessorsReadState : Prop :=
  ∀ s : State,
    (∀ a, s.byteOf a = if a < 0x1000 then some (s.mem.read a) else none) ∧
    (∀ a, a ≤ 0xFFE → ∃ w, s.wordOf a = some w ∧ w.toNat = (s.mem.read a).toNat * 256 + (s.mem.read (a + 1)).toNat) ∧
    (∀ a, 0xFFE < a → s.wordOf a = none) ∧
    (s.stackEmpty = true ↔ s.sp.toNat = s.params.stackSlots) ∧
    (s.sp.toNat ≤ s.params.stackSlots →
      s.peek = if s.sp.toNat = s.params.stackSlots then none
        else some (s.mem.readWord (0x1000 - 2 * s.params.stackSlots + 2 * s.sp.toNat)))

/-- 60_exceptions R344: a jump to itself is an infinite run of completed steps that change no register and no byte. -/
def Obligations.IdleLoopRunsForever : Prop :=
  ∀ (k : Nat) (s : State), s.Inv → idles s →
    ∃ t, Sys2Proof.core.run k s = .next t ∧ t.pc = s.pc ∧ t.v = s.v ∧ t.i = s.i ∧ t.sp = s.sp ∧ t.dt = s.dt ∧
      t.st = s.st ∧ t.mem = s.mem ∧ t.dirty = s.dirty ∧ t.params = s.params ∧ t.presents = s.presents
end

