-- ==== Sys2Proof/Laws/State.lean ====
section
/-! SUPPORT. One lemma per field per update of State, true by unfolding, so that no proof unfolds a record update. -/

namespace Sys2Proof.Machine

variable (s : State)

@[simp] theorem State.setV_v (r : Reg) (b : Byte) : (s.setV r b).v = s.v.set r.val b r.isLt := rfl
@[simp] theorem State.setV_i (r : Reg) (b : Byte) : (s.setV r b).i = s.i := rfl
@[simp] theorem State.setV_pc (r : Reg) (b : Byte) : (s.setV r b).pc = s.pc := rfl
@[simp] theorem State.setV_sp (r : Reg) (b : Byte) : (s.setV r b).sp = s.sp := rfl
@[simp] theorem State.setV_dt (r : Reg) (b : Byte) : (s.setV r b).dt = s.dt := rfl
@[simp] theorem State.setV_st (r : Reg) (b : Byte) : (s.setV r b).st = s.st := rfl
@[simp] theorem State.setV_mem (r : Reg) (b : Byte) : (s.setV r b).mem = s.mem := rfl
@[simp] theorem State.setV_dirty (r : Reg) (b : Byte) : (s.setV r b).dirty = s.dirty := rfl
@[simp] theorem State.setV_params (r : Reg) (b : Byte) : (s.setV r b).params = s.params := rfl
@[simp] theorem State.setV_inputs (r : Reg) (b : Byte) : (s.setV r b).inputs = s.inputs := rfl
@[simp] theorem State.setV_draws (r : Reg) (b : Byte) : (s.setV r b).draws = s.draws := rfl
@[simp] theorem State.setV_result (r : Reg) (b : Byte) : (s.setV r b).result = s.result := rfl
@[simp] theorem State.setV_presents (r : Reg) (b : Byte) : (s.setV r b).presents = s.presents := rfl

@[simp] theorem State.setI_v (w : Word) : (s.setI w).v = s.v := rfl
@[simp] theorem State.setI_i (w : Word) : (s.setI w).i = w := rfl
@[simp] theorem State.setI_pc (w : Word) : (s.setI w).pc = s.pc := rfl
@[simp] theorem State.setI_sp (w : Word) : (s.setI w).sp = s.sp := rfl
@[simp] theorem State.setI_dt (w : Word) : (s.setI w).dt = s.dt := rfl
@[simp] theorem State.setI_st (w : Word) : (s.setI w).st = s.st := rfl
@[simp] theorem State.setI_mem (w : Word) : (s.setI w).mem = s.mem := rfl
@[simp] theorem State.setI_dirty (w : Word) : (s.setI w).dirty = s.dirty := rfl
@[simp] theorem State.setI_params (w : Word) : (s.setI w).params = s.params := rfl
@[simp] theorem State.setI_inputs (w : Word) : (s.setI w).inputs = s.inputs := rfl
@[simp] theorem State.setI_draws (w : Word) : (s.setI w).draws = s.draws := rfl
@[simp] theorem State.setI_result (w : Word) : (s.setI w).result = s.result := rfl
@[simp] theorem State.setI_presents (w : Word) : (s.setI w).presents = s.presents := rfl

@[simp] theorem State.setPc_v (w : Word) : (s.setPc w).v = s.v := rfl
@[simp] theorem State.setPc_i (w : Word) : (s.setPc w).i = s.i := rfl
@[simp] theorem State.setPc_pc (w : Word) : (s.setPc w).pc = w := rfl
@[simp] theorem State.setPc_sp (w : Word) : (s.setPc w).sp = s.sp := rfl
@[simp] theorem State.setPc_dt (w : Word) : (s.setPc w).dt = s.dt := rfl
@[simp] theorem State.setPc_st (w : Word) : (s.setPc w).st = s.st := rfl
@[simp] theorem State.setPc_mem (w : Word) : (s.setPc w).mem = s.mem := rfl
@[simp] theorem State.setPc_dirty (w : Word) : (s.setPc w).dirty = s.dirty := rfl
@[simp] theorem State.setPc_params (w : Word) : (s.setPc w).params = s.params := rfl
@[simp] theorem State.setPc_inputs (w : Word) : (s.setPc w).inputs = s.inputs := rfl
@[simp] theorem State.setPc_draws (w : Word) : (s.setPc w).draws = s.draws := rfl
@[simp] theorem State.setPc_result (w : Word) : (s.setPc w).result = s.result := rfl
@[simp] theorem State.setPc_presents (w : Word) : (s.setPc w).presents = s.presents := rfl

@[simp] theorem State.setSp_v (k : Byte) : (s.setSp k).v = s.v := rfl
@[simp] theorem State.setSp_i (k : Byte) : (s.setSp k).i = s.i := rfl
@[simp] theorem State.setSp_pc (k : Byte) : (s.setSp k).pc = s.pc := rfl
@[simp] theorem State.setSp_sp (k : Byte) : (s.setSp k).sp = k := rfl
@[simp] theorem State.setSp_dt (k : Byte) : (s.setSp k).dt = s.dt := rfl
@[simp] theorem State.setSp_st (k : Byte) : (s.setSp k).st = s.st := rfl
@[simp] theorem State.setSp_mem (k : Byte) : (s.setSp k).mem = s.mem := rfl
@[simp] theorem State.setSp_dirty (k : Byte) : (s.setSp k).dirty = s.dirty := rfl
@[simp] theorem State.setSp_params (k : Byte) : (s.setSp k).params = s.params := rfl
@[simp] theorem State.setSp_inputs (k : Byte) : (s.setSp k).inputs = s.inputs := rfl
@[simp] theorem State.setSp_draws (k : Byte) : (s.setSp k).draws = s.draws := rfl
@[simp] theorem State.setSp_result (k : Byte) : (s.setSp k).result = s.result := rfl
@[simp] theorem State.setSp_presents (k : Byte) : (s.setSp k).presents = s.presents := rfl

@[simp] theorem State.setDt_v (b : Byte) : (s.setDt b).v = s.v := rfl
@[simp] theorem State.setDt_i (b : Byte) : (s.setDt b).i = s.i := rfl
@[simp] theorem State.setDt_pc (b : Byte) : (s.setDt b).pc = s.pc := rfl
@[simp] theorem State.setDt_sp (b : Byte) : (s.setDt b).sp = s.sp := rfl
@[simp] theorem State.setDt_dt (b : Byte) : (s.setDt b).dt = b := rfl
@[simp] theorem State.setDt_st (b : Byte) : (s.setDt b).st = s.st := rfl
@[simp] theorem State.setDt_mem (b : Byte) : (s.setDt b).mem = s.mem := rfl
@[simp] theorem State.setDt_dirty (b : Byte) : (s.setDt b).dirty = s.dirty := rfl
@[simp] theorem State.setDt_params (b : Byte) : (s.setDt b).params = s.params := rfl
@[simp] theorem State.setDt_inputs (b : Byte) : (s.setDt b).inputs = s.inputs := rfl
@[simp] theorem State.setDt_draws (b : Byte) : (s.setDt b).draws = s.draws := rfl
@[simp] theorem State.setDt_result (b : Byte) : (s.setDt b).result = s.result := rfl
@[simp] theorem State.setDt_presents (b : Byte) : (s.setDt b).presents = s.presents := rfl

@[simp] theorem State.setSt_v (b : Byte) : (s.setSt b).v = s.v := rfl
@[simp] theorem State.setSt_i (b : Byte) : (s.setSt b).i = s.i := rfl
@[simp] theorem State.setSt_pc (b : Byte) : (s.setSt b).pc = s.pc := rfl
@[simp] theorem State.setSt_sp (b : Byte) : (s.setSt b).sp = s.sp := rfl
@[simp] theorem State.setSt_dt (b : Byte) : (s.setSt b).dt = s.dt := rfl
@[simp] theorem State.setSt_st (b : Byte) : (s.setSt b).st = b := rfl
@[simp] theorem State.setSt_mem (b : Byte) : (s.setSt b).mem = s.mem := rfl
@[simp] theorem State.setSt_dirty (b : Byte) : (s.setSt b).dirty = s.dirty := rfl
@[simp] theorem State.setSt_params (b : Byte) : (s.setSt b).params = s.params := rfl
@[simp] theorem State.setSt_inputs (b : Byte) : (s.setSt b).inputs = s.inputs := rfl
@[simp] theorem State.setSt_draws (b : Byte) : (s.setSt b).draws = s.draws := rfl
@[simp] theorem State.setSt_result (b : Byte) : (s.setSt b).result = s.result := rfl
@[simp] theorem State.setSt_presents (b : Byte) : (s.setSt b).presents = s.presents := rfl

@[simp] theorem State.setMem_v (m : Memory) : (s.setMem m).v = s.v := rfl
@[simp] theorem State.setMem_i (m : Memory) : (s.setMem m).i = s.i := rfl
@[simp] theorem State.setMem_pc (m : Memory) : (s.setMem m).pc = s.pc := rfl
@[simp] theorem State.setMem_sp (m : Memory) : (s.setMem m).sp = s.sp := rfl
@[simp] theorem State.setMem_dt (m : Memory) : (s.setMem m).dt = s.dt := rfl
@[simp] theorem State.setMem_st (m : Memory) : (s.setMem m).st = s.st := rfl
@[simp] theorem State.setMem_mem (m : Memory) : (s.setMem m).mem = m := rfl
@[simp] theorem State.setMem_dirty (m : Memory) : (s.setMem m).dirty = s.dirty := rfl
@[simp] theorem State.setMem_params (m : Memory) : (s.setMem m).params = s.params := rfl
@[simp] theorem State.setMem_inputs (m : Memory) : (s.setMem m).inputs = s.inputs := rfl
@[simp] theorem State.setMem_draws (m : Memory) : (s.setMem m).draws = s.draws := rfl
@[simp] theorem State.setMem_result (m : Memory) : (s.setMem m).result = s.result := rfl
@[simp] theorem State.setMem_presents (m : Memory) : (s.setMem m).presents = s.presents := rfl

@[simp] theorem State.dirtyIf_v (c : Bool) : (s.dirtyIf c).v = s.v := rfl
@[simp] theorem State.dirtyIf_i (c : Bool) : (s.dirtyIf c).i = s.i := rfl
@[simp] theorem State.dirtyIf_pc (c : Bool) : (s.dirtyIf c).pc = s.pc := rfl
@[simp] theorem State.dirtyIf_sp (c : Bool) : (s.dirtyIf c).sp = s.sp := rfl
@[simp] theorem State.dirtyIf_dt (c : Bool) : (s.dirtyIf c).dt = s.dt := rfl
@[simp] theorem State.dirtyIf_st (c : Bool) : (s.dirtyIf c).st = s.st := rfl
@[simp] theorem State.dirtyIf_mem (c : Bool) : (s.dirtyIf c).mem = s.mem := rfl
@[simp] theorem State.dirtyIf_dirty (c : Bool) : (s.dirtyIf c).dirty = (s.dirty || c) := rfl
@[simp] theorem State.dirtyIf_params (c : Bool) : (s.dirtyIf c).params = s.params := rfl
@[simp] theorem State.dirtyIf_inputs (c : Bool) : (s.dirtyIf c).inputs = s.inputs := rfl
@[simp] theorem State.dirtyIf_draws (c : Bool) : (s.dirtyIf c).draws = s.draws := rfl
@[simp] theorem State.dirtyIf_result (c : Bool) : (s.dirtyIf c).result = s.result := rfl
@[simp] theorem State.dirtyIf_presents (c : Bool) : (s.dirtyIf c).presents = s.presents := rfl

@[simp] theorem State.awaitKey_v : (s.awaitKey).v = s.v := rfl
@[simp] theorem State.awaitKey_i : (s.awaitKey).i = s.i := rfl
@[simp] theorem State.awaitKey_pc : (s.awaitKey).pc = s.pc := rfl
@[simp] theorem State.awaitKey_sp : (s.awaitKey).sp = s.sp := rfl
@[simp] theorem State.awaitKey_dt : (s.awaitKey).dt = s.dt := rfl
@[simp] theorem State.awaitKey_st : (s.awaitKey).st = s.st := rfl
@[simp] theorem State.awaitKey_mem : (s.awaitKey).mem = s.mem := rfl
@[simp] theorem State.awaitKey_dirty : (s.awaitKey).dirty = s.dirty := rfl
@[simp] theorem State.awaitKey_params : (s.awaitKey).params = s.params := rfl
@[simp] theorem State.awaitKey_inputs : (s.awaitKey).inputs = s.inputs := rfl
@[simp] theorem State.awaitKey_draws : (s.awaitKey).draws = s.draws := rfl
@[simp] theorem State.awaitKey_result : (s.awaitKey).result = .awaitingKey := rfl
@[simp] theorem State.awaitKey_presents : (s.awaitKey).presents = s.presents := rfl

/-! ## The register file -/

theorem State.getV_eq (r : Reg) : s.getV r = s.v[r.val] := rfl

theorem State.getV_setV_same (r : Reg) (b : Byte) : (s.setV r b).getV r = b := by
  simp [State.getV_eq]

theorem State.getV_setV_other {r q : Reg} (b : Byte) (h : r ≠ q) : (s.setV r b).getV q = s.getV q := by
  have : r.val ≠ q.val := fun e => h (Fin.ext e)
  simp [State.getV_eq, Vector.getElem_set_ne, this]

/-- What a register reads after a write. -/
@[simp] theorem State.getV_setV (r q : Reg) (b : Byte) :
    (s.setV r b).getV q = if r = q then b else s.getV q := by
  split
  · next h => subst h; exact State.getV_setV_same s r b
  · next h => exact State.getV_setV_other s b h

@[simp] theorem State.getV_setI (w : Word) (q : Reg) : (s.setI w).getV q = s.getV q := rfl
@[simp] theorem State.getV_setPc (w : Word) (q : Reg) : (s.setPc w).getV q = s.getV q := rfl
@[simp] theorem State.getV_setSp (k : Byte) (q : Reg) : (s.setSp k).getV q = s.getV q := rfl
@[simp] theorem State.getV_setDt (b : Byte) (q : Reg) : (s.setDt b).getV q = s.getV q := rfl
@[simp] theorem State.getV_setSt (b : Byte) (q : Reg) : (s.setSt b).getV q = s.getV q := rfl
@[simp] theorem State.getV_setMem (m : Memory) (q : Reg) : (s.setMem m).getV q = s.getV q := rfl
@[simp] theorem State.getV_dirtyIf (c : Bool) (q : Reg) : (s.dirtyIf c).getV q = s.getV q := rfl
@[simp] theorem State.getV_awaitKey (q : Reg) : (s.awaitKey).getV q = s.getV q := rfl

/-- A flag-writing instruction leaves the flag in VF and the result in V[x], unless x = 0xF (10_state R23). -/
@[simp] theorem State.getV_setVThenFlag (x q : Reg) (a f : Byte) :
    (s.setVThenFlag x a f).getV q = if vF = q then f else if x = q then a else s.getV q := by
  simp [State.setVThenFlag]

@[simp] theorem State.setVThenFlag_i (x : Reg) (a f : Byte) : (s.setVThenFlag x a f).i = s.i := rfl
@[simp] theorem State.setVThenFlag_pc (x : Reg) (a f : Byte) : (s.setVThenFlag x a f).pc = s.pc := rfl
@[simp] theorem State.setVThenFlag_sp (x : Reg) (a f : Byte) : (s.setVThenFlag x a f).sp = s.sp := rfl
@[simp] theorem State.setVThenFlag_dt (x : Reg) (a f : Byte) : (s.setVThenFlag x a f).dt = s.dt := rfl
@[simp] theorem State.setVThenFlag_st (x : Reg) (a f : Byte) : (s.setVThenFlag x a f).st = s.st := rfl
@[simp] theorem State.setVThenFlag_mem (x : Reg) (a f : Byte) : (s.setVThenFlag x a f).mem = s.mem := rfl
@[simp] theorem State.setVThenFlag_dirty (x : Reg) (a f : Byte) : (s.setVThenFlag x a f).dirty = s.dirty := rfl
@[simp] theorem State.setVThenFlag_params (x : Reg) (a f : Byte) : (s.setVThenFlag x a f).params = s.params := rfl
@[simp] theorem State.setVThenFlag_inputs (x : Reg) (a f : Byte) : (s.setVThenFlag x a f).inputs = s.inputs := rfl
@[simp] theorem State.setVThenFlag_draws (x : Reg) (a f : Byte) : (s.setVThenFlag x a f).draws = s.draws := rfl
@[simp] theorem State.setVThenFlag_result (x : Reg) (a f : Byte) : (s.setVThenFlag x a f).result = s.result := rfl
@[simp] theorem State.setVThenFlag_presents (x : Reg) (a f : Byte) : (s.setVThenFlag x a f).presents = s.presents := rfl

@[simp] theorem State.skipIf_v (c : Bool) : (s.skipIf c).v = s.v := by
  cases c <;> rfl
@[simp] theorem State.skipIf_i (c : Bool) : (s.skipIf c).i = s.i := by
  cases c <;> rfl
@[simp] theorem State.skipIf_pc (c : Bool) : (s.skipIf c).pc = (if c then s.pc + 2#16 else s.pc) := by
  cases c <;> rfl
@[simp] theorem State.skipIf_sp (c : Bool) : (s.skipIf c).sp = s.sp := by
  cases c <;> rfl
@[simp] theorem State.skipIf_dt (c : Bool) : (s.skipIf c).dt = s.dt := by
  cases c <;> rfl
@[simp] theorem State.skipIf_st (c : Bool) : (s.skipIf c).st = s.st := by
  cases c <;> rfl
@[simp] theorem State.skipIf_mem (c : Bool) : (s.skipIf c).mem = s.mem := by
  cases c <;> rfl
@[simp] theorem State.skipIf_dirty (c : Bool) : (s.skipIf c).dirty = s.dirty := by
  cases c <;> rfl
@[simp] theorem State.skipIf_params (c : Bool) : (s.skipIf c).params = s.params := by
  cases c <;> rfl
@[simp] theorem State.skipIf_inputs (c : Bool) : (s.skipIf c).inputs = s.inputs := by
  cases c <;> rfl
@[simp] theorem State.skipIf_draws (c : Bool) : (s.skipIf c).draws = s.draws := by
  cases c <;> rfl
@[simp] theorem State.skipIf_result (c : Bool) : (s.skipIf c).result = s.result := by
  cases c <;> rfl
@[simp] theorem State.skipIf_presents (c : Bool) : (s.skipIf c).presents = s.presents := by
  cases c <;> rfl

@[simp] theorem State.fetched_v : s.fetched.v = s.v := rfl
@[simp] theorem State.fetched_i : s.fetched.i = s.i := rfl
@[simp] theorem State.fetched_pc : s.fetched.pc = s.pc + 2#16 := rfl
@[simp] theorem State.fetched_sp : s.fetched.sp = s.sp := rfl
@[simp] theorem State.fetched_dt : s.fetched.dt = s.dt := rfl
@[simp] theorem State.fetched_st : s.fetched.st = s.st := rfl
@[simp] theorem State.fetched_mem : s.fetched.mem = s.mem := rfl
@[simp] theorem State.fetched_dirty : s.fetched.dirty = s.dirty := rfl
@[simp] theorem State.fetched_params : s.fetched.params = s.params := rfl
@[simp] theorem State.fetched_inputs : s.fetched.inputs = s.inputs := rfl
@[simp] theorem State.fetched_draws : s.fetched.draws = s.draws := rfl
@[simp] theorem State.fetched_result : s.fetched.result = .continued := rfl
@[simp] theorem State.fetched_presents : s.fetched.presents = s.presents := rfl

@[simp] theorem State.nextInputs_v : s.nextInputs.v = s.v := rfl
@[simp] theorem State.nextInputs_i : s.nextInputs.i = s.i := rfl
@[simp] theorem State.nextInputs_pc : s.nextInputs.pc = s.pc := rfl
@[simp] theorem State.nextInputs_sp : s.nextInputs.sp = s.sp := rfl
@[simp] theorem State.nextInputs_dt : s.nextInputs.dt = s.dt := rfl
@[simp] theorem State.nextInputs_st : s.nextInputs.st = s.st := rfl
@[simp] theorem State.nextInputs_mem : s.nextInputs.mem = s.mem := rfl
@[simp] theorem State.nextInputs_dirty : s.nextInputs.dirty = s.dirty := rfl
@[simp] theorem State.nextInputs_params : s.nextInputs.params = s.params := rfl
@[simp] theorem State.nextInputs_inputs : s.nextInputs.inputs = s.inputs.tail := rfl
@[simp] theorem State.nextInputs_draws : s.nextInputs.draws = s.draws + 1 := rfl
@[simp] theorem State.nextInputs_result : s.nextInputs.result = s.result := rfl
@[simp] theorem State.nextInputs_presents : s.nextInputs.presents = s.presents := rfl

@[simp] theorem State.presentIfDirty_v : s.presentIfDirty.v = s.v := by
  unfold State.presentIfDirty; split <;> rfl
@[simp] theorem State.presentIfDirty_i : s.presentIfDirty.i = s.i := by
  unfold State.presentIfDirty; split <;> rfl
@[simp] theorem State.presentIfDirty_pc : s.presentIfDirty.pc = s.pc := by
  unfold State.presentIfDirty; split <;> rfl
@[simp] theorem State.presentIfDirty_sp : s.presentIfDirty.sp = s.sp := by
  unfold State.presentIfDirty; split <;> rfl
@[simp] theorem State.presentIfDirty_dt : s.presentIfDirty.dt = s.dt := by
  unfold State.presentIfDirty; split <;> rfl
@[simp] theorem State.presentIfDirty_st : s.presentIfDirty.st = s.st := by
  unfold State.presentIfDirty; split <;> rfl
@[simp] theorem State.presentIfDirty_mem : s.presentIfDirty.mem = s.mem := by
  unfold State.presentIfDirty; split <;> rfl
@[simp] theorem State.presentIfDirty_params : s.presentIfDirty.params = s.params := by
  unfold State.presentIfDirty; split <;> rfl
@[simp] theorem State.presentIfDirty_inputs : s.presentIfDirty.inputs = s.inputs := by
  unfold State.presentIfDirty; split <;> rfl
@[simp] theorem State.presentIfDirty_draws : s.presentIfDirty.draws = s.draws := by
  unfold State.presentIfDirty; split <;> rfl
@[simp] theorem State.presentIfDirty_result : s.presentIfDirty.result = s.result := by
  unfold State.presentIfDirty; split <;> rfl

/-- No step that completes leaves `dirty` set (10_state R32). -/
@[simp] theorem State.presentIfDirty_dirty : s.presentIfDirty.dirty = false := by
  unfold State.presentIfDirty
  split
  · rfl
  · next h => simpa using h

/-- At most one call of `present` a step (60_exceptions R335). -/
@[simp] theorem State.presentIfDirty_presents :
    s.presentIfDirty.presents = if s.dirty then s.frame :: s.presents else s.presents := by
  unfold State.presentIfDirty; split <;> rfl

/-- The inputs a rule reads are those of the step, whatever the fetch did. -/
@[simp] theorem State.input_fetched : s.fetched.input = s.input := rfl

end Sys2Proof.Machine
end

