-- ==== Sys2Proof/Laws/Alu.lean ====
section
/-! SUPPORT. The 8-bit results and flags as bit vector arithmetic (41_register_alu R160, R173). -/

namespace Sys2Proof.Machine

theorem sum8_eq_add (a b : Byte) : sum8 a b = a + b := by
  apply BitVec.eq_of_toNat_eq; simp [sum8, trunc8]

theorem diff8_eq_sub (a b : Byte) : diff8 a b = a - b := by
  apply BitVec.eq_of_toNat_eq
  have := a.isLt; have := b.isLt
  simp only [diff8, BitVec.toNat_ofInt, BitVec.toNat_sub]
  omega

theorem shiftRight8_eq : ∀ a : Byte, shiftRight8 a = a >>> 1 := by decide

theorem shiftLeft8_eq : ∀ a : Byte, shiftLeft8 a = a <<< 1 := by decide

theorem shiftOutLow_eq : ∀ a : Byte, shiftOutLow a = a &&& 1#8 := by decide

theorem shiftOutHigh_eq : ∀ a : Byte, shiftOutHigh a = a >>> 7 := by decide

theorem carryFlag_eq (a b : Byte) : carryFlag a b = if 255 < a.toNat + b.toNat then 1#8 else 0#8 := by
  simp [carryFlag, boolByte]

theorem notBorrowFlag_eq (a b : Byte) : notBorrowFlag a b = if b.toNat < a.toNat then 1#8 else 0#8 := by
  simp [notBorrowFlag, boolByte]

theorem boolByte_eq_one_iff (c : Bool) : boolByte c = 1#8 ↔ c = true := by cases c <;> decide

end Sys2Proof.Machine
end

