-- ==== Sys2Proof/Laws/Decode.lean ====
section
/-! SUPPORT. The fields of a packed opcode, an opcode rebuilt from its fields, and what a row's mask tests. -/

namespace Sys2Proof

/-! ## Fields as numbers (30_encoding R94) -/

theorem fieldG_toNat (op : Word) : (fieldG op).toNat = op.toNat / 0x1000 := by
  have := op.isLt
  simp only [fieldG, BitVec.extractLsb'_toNat, Nat.shiftRight_eq_div_pow]; omega

theorem fieldX_val (op : Word) : (fieldX op).val = op.toNat / 0x100 % 16 := by
  simp [fieldX, Nat.shiftRight_eq_div_pow]

theorem fieldY_val (op : Word) : (fieldY op).val = op.toNat / 0x10 % 16 := by
  simp [fieldY, Nat.shiftRight_eq_div_pow]

theorem fieldN_val (op : Word) : (fieldN op).val = op.toNat % 16 := by
  simp [fieldN]

theorem fieldKK_toNat (op : Word) : (fieldKK op).toNat = op.toNat % 0x100 := by
  simp [fieldKK, BitVec.extractLsb'_toNat]

theorem fieldNNN_toNat (op : Word) : (fieldNNN op).toNat = op.toNat % 0x1000 := by
  simp [fieldNNN, BitVec.extractLsb'_toNat]

/-! ## Packed words as numbers (30_encoding R95) -/

theorem packNNN_toNat (g : BitVec 4) (nnn : BitVec 12) :
    (packNNN g nnn).toNat = g.toNat * 0x1000 + nnn.toNat := by
  have := g.isLt; have := nnn.isLt
  simp only [packNNN, trunc16, BitVec.toNat_ofNat]; omega

theorem packXKK_toNat (g : BitVec 4) (x : Reg) (kk : Byte) :
    (packXKK g x kk).toNat = g.toNat * 0x1000 + x.val * 0x100 + kk.toNat := by
  have := g.isLt; have := x.isLt; have := kk.isLt
  simp only [packXKK, trunc16, BitVec.toNat_ofNat]; omega

theorem packXYN_toNat (g : BitVec 4) (x y : Reg) (n : Fin 16) :
    (packXYN g x y n).toNat = g.toNat * 0x1000 + x.val * 0x100 + y.val * 0x10 + n.val := by
  have := g.isLt; have := x.isLt; have := y.isLt; have := n.isLt
  simp only [packXYN, trunc16, BitVec.toNat_ofNat]; omega

/-! ## Fields of packed words -/

@[simp] theorem fieldG_packNNN (g : BitVec 4) (nnn : BitVec 12) : fieldG (packNNN g nnn) = g := by
  have := nnn.isLt
  apply BitVec.eq_of_toNat_eq; rw [fieldG_toNat, packNNN_toNat]; omega

@[simp] theorem fieldNNN_packNNN (g : BitVec 4) (nnn : BitVec 12) : fieldNNN (packNNN g nnn) = nnn := by
  have := nnn.isLt
  apply BitVec.eq_of_toNat_eq; rw [fieldNNN_toNat, packNNN_toNat]; omega

@[simp] theorem fieldG_packXKK (g : BitVec 4) (x : Reg) (kk : Byte) : fieldG (packXKK g x kk) = g := by
  have := x.isLt; have := kk.isLt
  apply BitVec.eq_of_toNat_eq; rw [fieldG_toNat, packXKK_toNat]; omega

@[simp] theorem fieldX_packXKK (g : BitVec 4) (x : Reg) (kk : Byte) : fieldX (packXKK g x kk) = x := by
  have := x.isLt; have := kk.isLt
  apply Fin.ext; rw [fieldX_val, packXKK_toNat]; omega

@[simp] theorem fieldKK_packXKK (g : BitVec 4) (x : Reg) (kk : Byte) : fieldKK (packXKK g x kk) = kk := by
  have := kk.isLt
  apply BitVec.eq_of_toNat_eq; rw [fieldKK_toNat, packXKK_toNat]; omega

@[simp] theorem fieldG_packXYN (g : BitVec 4) (x y : Reg) (n : Fin 16) : fieldG (packXYN g x y n) = g := by
  have := x.isLt; have := y.isLt; have := n.isLt
  apply BitVec.eq_of_toNat_eq; rw [fieldG_toNat, packXYN_toNat]; omega

@[simp] theorem fieldX_packXYN (g : BitVec 4) (x y : Reg) (n : Fin 16) : fieldX (packXYN g x y n) = x := by
  have := x.isLt; have := y.isLt; have := n.isLt
  apply Fin.ext; rw [fieldX_val, packXYN_toNat]; omega

@[simp] theorem fieldY_packXYN (g : BitVec 4) (x y : Reg) (n : Fin 16) : fieldY (packXYN g x y n) = y := by
  have := y.isLt; have := n.isLt
  apply Fin.ext; rw [fieldY_val, packXYN_toNat]; omega

@[simp] theorem fieldN_packXYN (g : BitVec 4) (x y : Reg) (n : Fin 16) : fieldN (packXYN g x y n) = n := by
  have := n.isLt
  apply Fin.ext; rw [fieldN_val, packXYN_toNat]; omega

/-! ## A word is its fields -/

theorem packNNN_fields (op : Word) : packNNN (fieldG op) (fieldNNN op) = op := by
  apply BitVec.eq_of_toNat_eq
  rw [packNNN_toNat, fieldG_toNat, fieldNNN_toNat]; omega

theorem packXKK_fields (op : Word) : packXKK (fieldG op) (fieldX op) (fieldKK op) = op := by
  apply BitVec.eq_of_toNat_eq
  rw [packXKK_toNat, fieldG_toNat, fieldX_val, fieldKK_toNat]; omega

theorem packXYN_fields (op : Word) : packXYN (fieldG op) (fieldX op) (fieldY op) (fieldN op) = op := by
  apply BitVec.eq_of_toNat_eq
  rw [packXYN_toNat, fieldG_toNat, fieldX_val, fieldY_val, fieldN_val]; omega

/-- A word is its two bytes (20_memory R61). -/
theorem wordOfBytes_high_low (w : Word) : wordOfBytes (highByte w) (lowByte w) = w := by
  have := w.isLt
  apply BitVec.eq_of_toNat_eq
  simp only [wordOfBytes, highByte, lowByte, trunc16, BitVec.toNat_ofNat, BitVec.extractLsb'_toNat,
    Nat.shiftRight_eq_div_pow]
  omega

theorem highByte_wordOfBytes (hi lo : Byte) : highByte (wordOfBytes hi lo) = hi := by
  have := hi.isLt; have := lo.isLt
  apply BitVec.eq_of_toNat_eq
  simp only [wordOfBytes, highByte, trunc16, BitVec.toNat_ofNat, BitVec.extractLsb'_toNat, Nat.shiftRight_eq_div_pow]
  omega

theorem lowByte_wordOfBytes (hi lo : Byte) : lowByte (wordOfBytes hi lo) = lo := by
  have := hi.isLt; have := lo.isLt
  apply BitVec.eq_of_toNat_eq
  simp only [wordOfBytes, lowByte, trunc16, BitVec.toNat_ofNat, BitVec.extractLsb'_toNat, Nat.shiftRight_eq_div_pow]
  omega

/-! ## What a row's mask tests (30_encoding R96, R100) -/

/-- The hex digit of a word at digit place `k`. -/
def hexDigit (k : Nat) (op : Word) : BitVec 4 := op.extractLsb' (4 * k) 4

theorem fieldX_eq_digit (op : Word) : fieldX op = (hexDigit 2 op).toFin := rfl
theorem fieldY_eq_digit (op : Word) : fieldY op = (hexDigit 1 op).toFin := rfl
theorem fieldN_eq_digit (op : Word) : fieldN op = (hexDigit 0 op).toFin := rfl
theorem fieldG_eq_digit (op : Word) : fieldG op = hexDigit 3 op := rfl

theorem hexDigit_and (k : Nat) (a b : Word) : hexDigit k (a &&& b) = hexDigit k a &&& hexDigit k b := by
  apply BitVec.eq_of_getLsbD_eq; intro i hi
  simp [hexDigit, hi]

theorem eq_iff_hexDigits (a b : Word) : a = b ↔ ∀ k < 4, hexDigit k a = hexDigit k b := by
  refine ⟨fun h k _ => by rw [h], fun h => ?_⟩
  rw [← packXYN_fields a, ← packXYN_fields b, fieldG_eq_digit, fieldG_eq_digit, fieldX_eq_digit, fieldX_eq_digit,
    fieldY_eq_digit, fieldY_eq_digit, fieldN_eq_digit, fieldN_eq_digit, h 0 (by decide), h 1 (by decide),
    h 2 (by decide), h 3 (by decide)]

/-- An opcode matches a row digit by digit. -/
theorem and_eq_iff_hexDigits (op mask pat : Word) :
    op &&& mask = pat ↔ ∀ k < 4, hexDigit k op &&& hexDigit k mask = hexDigit k pat := by
  rw [eq_iff_hexDigits]; simp only [hexDigit_and]

theorem and_zero_digit (d p : BitVec 4) : d &&& 0#4 = p ↔ p = 0#4 := by
  rw [BitVec.and_zero]; exact eq_comm

theorem and_full_digit (d p : BitVec 4) : d &&& 15#4 = p ↔ d = p := by
  rw [show (15#4 : BitVec 4) = BitVec.allOnes 4 from rfl, BitVec.and_allOnes]

theorem all_digits (q : Nat → Prop) : (∀ k < 4, q k) ↔ q 0 ∧ q 1 ∧ q 2 ∧ q 3 := by
  refine ⟨fun h => ⟨h 0 (by omega), h 1 (by omega), h 2 (by omega), h 3 (by omega)⟩, ?_⟩
  rintro ⟨h0, h1, h2, h3⟩ k hk
  have : k = 0 ∨ k = 1 ∨ k = 2 ∨ k = 3 := by omega
  rcases this with rfl | rfl | rfl | rfl <;> assumption

/-- The mask 0xF000 tests the group alone. -/
theorem mask_F000 (op pat : Word) (h2 : hexDigit 2 pat = 0) (h1 : hexDigit 1 pat = 0) (h0 : hexDigit 0 pat = 0) :
    op &&& 0xF000#16 = pat ↔ fieldG op = hexDigit 3 pat := by
  rw [and_eq_iff_hexDigits, all_digits, show hexDigit 0 0xF000#16 = 0#4 from rfl, show hexDigit 1 0xF000#16 = 0#4 from rfl,
    show hexDigit 2 0xF000#16 = 0#4 from rfl, show hexDigit 3 0xF000#16 = 15#4 from rfl, and_zero_digit, and_zero_digit,
    and_zero_digit, and_full_digit, fieldG_eq_digit]
  exact ⟨fun h => h.2.2.2, fun h => ⟨h0, h1, h2, h⟩⟩

/-- The mask 0xF00F tests the group and the low nibble. -/
theorem mask_F00F (op pat : Word) (h2 : hexDigit 2 pat = 0) (h1 : hexDigit 1 pat = 0) :
    op &&& 0xF00F#16 = pat ↔ fieldG op = hexDigit 3 pat ∧ fieldN op = fieldN pat := by
  rw [and_eq_iff_hexDigits, all_digits, show hexDigit 0 0xF00F#16 = 15#4 from rfl, show hexDigit 1 0xF00F#16 = 0#4 from rfl,
    show hexDigit 2 0xF00F#16 = 0#4 from rfl, show hexDigit 3 0xF00F#16 = 15#4 from rfl, and_full_digit, and_zero_digit,
    and_zero_digit, and_full_digit, fieldG_eq_digit, fieldN_eq_digit, fieldN_eq_digit]
  exact ⟨fun h => ⟨h.2.2.2, congrArg _ h.1⟩, fun h => ⟨BitVec.eq_of_toFin_eq h.2, h1, h2, h.1⟩⟩

/-- The mask 0xF0FF tests the group and the low byte. -/
theorem mask_F0FF (op pat : Word) (h2 : hexDigit 2 pat = 0) :
    op &&& 0xF0FF#16 = pat ↔ fieldG op = hexDigit 3 pat ∧ fieldKK op = fieldKK pat := by
  have kk : fieldKK op = fieldKK pat ↔ hexDigit 0 op = hexDigit 0 pat ∧ hexDigit 1 op = hexDigit 1 pat := by
    simp only [← BitVec.toNat_inj, fieldKK_toNat, hexDigit, BitVec.extractLsb'_toNat, Nat.shiftRight_eq_div_pow]
    omega
  rw [and_eq_iff_hexDigits, all_digits, show hexDigit 0 0xF0FF#16 = 15#4 from rfl, show hexDigit 1 0xF0FF#16 = 15#4 from rfl,
    show hexDigit 2 0xF0FF#16 = 0#4 from rfl, show hexDigit 3 0xF0FF#16 = 15#4 from rfl, and_full_digit, and_full_digit,
    and_zero_digit, and_full_digit, fieldG_eq_digit, kk]
  exact ⟨fun h => ⟨h.2.2.2, h.1, h.2.1⟩, fun h => ⟨h.2.1, h.2.2, h2, h.1⟩⟩

end Sys2Proof
end

