-- ==== Sys2Proof/Laws/Layout.lean ====
section
/-! SUPPORT. Where the regions and the pixels lie. -/

namespace Sys2Proof

/-- The framebuffer region lies in memory, whatever the parameters. -/
theorem Params.fbBase_add_le (p : Params) : p.fbBase + fbBytes ≤ memSize := by
  unfold Params.fbBase Params.stackBase fbBytes memSize; omega

/-- The regions follow one another (20_memory R64). -/
theorem Params.fbBase_add_eq {p : Params} (h : p.wf = true) : p.fbBase + fbBytes = p.stackBase := by
  simp only [Params.wf, Params.slotsFitSp, Bool.and_eq_true, decide_eq_true_eq] at h
  unfold Params.fbBase Params.stackBase fbBytes memSize; omega

theorem Params.slotAddr_add_le {p : Params} (h : p.wf = true) {k : Nat} (hk : k < p.stackSlots) :
    p.slotAddr k + 2 ≤ memSize := by
  simp only [Params.wf, Params.slotsFitSp, Bool.and_eq_true, decide_eq_true_eq] at h
  unfold Params.slotAddr Params.stackBase memSize; omega

theorem Params.inFB_iff {p : Params} {a : Nat} : p.inFB a = true ↔ p.fbBase ≤ a ∧ a < p.fbBase + fbBytes := by
  simp [Params.inFB]

theorem Params.touchesFB_iff {p : Params} {base len : Nat} :
    p.touchesFB base len = true ↔ ∃ k, k < len ∧ p.inFB (base + k) = true := by
  simp [Params.touchesFB]

/-! ## Where pixels lie (42_display R200) -/

theorem Params.fbAddr_ge (p : Params) (px py : Nat) : p.fbBase ≤ p.fbAddr px py := by
  unfold Params.fbAddr; omega

theorem Params.fbAddr_lt (p : Params) {px py : Nat} (hx : px < fbWidth) (hy : py < fbHeight) :
    p.fbAddr px py < p.fbBase + fbBytes := by
  unfold Params.fbAddr fbStride fbBytes; unfold fbWidth at hx; unfold fbHeight at hy; omega

theorem Params.fbAddr_lt_memSize (p : Params) {px py : Nat} (hx : px < fbWidth) (hy : py < fbHeight) :
    p.fbAddr px py < memSize :=
  Nat.lt_of_lt_of_le (p.fbAddr_lt hx hy) p.fbBase_add_le

theorem fbBit_lt (px : Nat) : fbBit px < 8 := by unfold fbBit; omega

/-- Two pixels on screen share a byte and a bit only when they are the same pixel. -/
theorem Params.pixel_place_inj (p : Params) {px py qx qy : Nat} (hx : px < fbWidth) (hq : qx < fbWidth)
    (ha : p.fbAddr px py = p.fbAddr qx qy) (hb : fbBit px = fbBit qx) : px = qx ∧ py = qy := by
  unfold Params.fbAddr fbStride at ha; unfold fbBit at hb; unfold fbWidth at hx hq; omega

end Sys2Proof
end

