-- ==== Sys2Proof/Laws/Memory.lean ====
section
/-! SUPPORT. The laws of memory: reads after writes, and the canonical form kept by every operation. -/

namespace Sys2Proof.Machine

/-! ## Reads after writes -/

theorem Memory.read_erase (m : Memory) (a c : Nat) :
    (m.erase a).read c = if c = a then Memory.unlisted else m.read c := by
  induction m with
  | nil => simp [Memory.erase, Memory.read]
  | cons e rest ih =>
    obtain ⟨k, b⟩ := e
    simp only [Memory.erase] at ih ⊢
    by_cases hk : k = a
    · subst hk
      simp only [List.filter_cons, bne_self_eq_false, Bool.false_eq_true, if_false, ih, Memory.read]
      by_cases hc : c = k
      · simp [hc]
      · simp [hc, Ne.symm hc]
    · simp only [List.filter_cons, bne_iff_ne, ne_eq, hk, not_false_eq_true, if_true, Memory.read, ih]
      by_cases hc : k = c
      · subst hc; simp [hk]
      · simp [hc]

theorem Memory.ne_of_mem_erase {m : Memory} {a : Nat} : ∀ e ∈ m.erase a, e.1 ≠ a := fun e he => by
  simpa using (List.mem_filter.mp he).2

theorem Memory.read_insert {m : Memory} {a : Nat} (hne : ∀ e ∈ m, e.1 ≠ a) (b : Byte) (c : Nat) :
    (m.insert a b).read c = if c = a then b else m.read c := by
  induction m with
  | nil => simp [Memory.insert, Memory.read, eq_comm]
  | cons e rest ih =>
    obtain ⟨k, d⟩ := e
    have hk : k ≠ a := hne (k, d) (by simp)
    simp only [Memory.insert]
    split
    · simp [Memory.read, eq_comm]
    · simp only [Memory.read, ih fun e he => hne e (by simp [he])]
      by_cases hc : c = a
      · subst hc; simp [hk]
      · simp [hc]

/-- What an address reads after a write inside memory (20_memory R71). -/
theorem Memory.read_write (m : Memory) {a : Nat} (h : a < memSize) (b : Byte) (c : Nat) :
    (m.write a b).read c = if c = a then b else m.read c := by
  unfold Memory.write
  rw [if_pos h]
  split
  · next hb => rw [Memory.read_erase, hb]
  · rw [Memory.read_insert Memory.ne_of_mem_erase, Memory.read_erase]
    split <;> rfl

theorem Memory.read_write_same (m : Memory) {a : Nat} (h : a < memSize) (b : Byte) :
    (m.write a b).read a = b := by
  rw [Memory.read_write m h, if_pos rfl]

theorem Memory.read_write_other (m : Memory) {a c : Nat} (b : Byte) (h : c ≠ a) :
    (m.write a b).read c = m.read c := by
  by_cases ha : a < memSize
  · rw [Memory.read_write m ha, if_neg h]
  · simp [Memory.write, ha]

/-- A range of bytes written reads back, and every other address reads as before (20_memory R71). -/
theorem Memory.read_writeBytes (bs : List Byte) (m : Memory) (a : Nat) (h : a + bs.length ≤ memSize) (c : Nat) :
    (m.writeBytes a bs).read c = if a ≤ c then (bs[c - a]?).getD (m.read c) else m.read c := by
  induction bs generalizing m a with
  | nil => simp [Memory.writeBytes]
  | cons b bs ih =>
    simp only [List.length_cons] at h
    rw [Memory.writeBytes, ih _ _ (by omega)]
    by_cases h1 : a + 1 ≤ c
    · have e : c - a = (c - (a + 1)) + 1 := by omega
      rw [if_pos h1, if_pos (by omega), e, List.getElem?_cons_succ, Memory.read_write_other m b (by omega)]
    · rw [if_neg h1]
      by_cases h2 : c = a
      · subst h2; rw [Memory.read_write_same m (by omega)]; simp
      · rw [if_neg (by omega), Memory.read_write_other m b h2]

/-- Addresses outside the bytes written read as before, wherever the range lies. -/
theorem Memory.read_writeBytes_outside (bs : List Byte) (m : Memory) (a c : Nat)
    (h : c < a ∨ a + bs.length ≤ c) : (m.writeBytes a bs).read c = m.read c := by
  induction bs generalizing m a with
  | nil => rfl
  | cons b bs ih =>
    simp only [List.length_cons] at h
    rw [Memory.writeBytes, ih _ _ (by omega), Memory.read_write_other m b (by omega)]

theorem Memory.readBytes_length (m : Memory) (a n : Nat) : (m.readBytes a n).length = n := by
  simp [Memory.readBytes]

theorem Memory.getElem?_readBytes (m : Memory) (a n k : Nat) :
    (m.readBytes a n)[k]? = if k < n then some (m.read (a + k)) else none := by
  unfold Memory.readBytes
  by_cases h : k < n <;> simp [h]

/-- A word written reads back (20_memory R61, R71). -/
theorem Memory.readWord_writeWord (m : Memory) (a : Nat) (h : a + 2 ≤ memSize) (w : Word) :
    (m.writeWord a w).readWord a = w := by
  have hl : a + [highByte w, lowByte w].length ≤ memSize := by simpa using h
  unfold Memory.readWord Memory.writeWord
  rw [Memory.read_writeBytes _ m a hl, Memory.read_writeBytes _ m a hl]
  simp [wordOfBytes_high_low]

/-! ## The canonical form -/

theorem Memory.wf_nil : Memory.wf [] := by simp [Memory.wf]

theorem Memory.wf_erase {m : Memory} (h : m.wf) (a : Nat) : (m.erase a).wf :=
  ⟨h.1.filter _, fun c hc => h.2 c (List.mem_of_mem_filter hc)⟩

theorem Memory.mem_insert {m : Memory} {a : Nat} {b : Byte} {e : Host.Cell} (h : e ∈ m.insert a b) :
    e = (a, b) ∨ e ∈ m := by
  induction m with
  | nil => simpa [Memory.insert] using h
  | cons d rest ih =>
    simp only [Memory.insert] at h
    split at h
    · simpa using h
    · rcases List.mem_cons.mp h with h | h
      · exact .inr (by simp [h])
      · exact (ih h).imp id fun h => by simp [h]

theorem Memory.wf_insert {m : Memory} (h : m.wf) {a : Nat} (ha : a < memSize) {b : Byte}
    (hb : b ≠ Memory.unlisted) (hne : ∀ e ∈ m, e.1 ≠ a) : (m.insert a b).wf := by
  refine ⟨?_, fun c hc => (Memory.mem_insert hc).elim (fun e => by subst e; exact ⟨ha, hb⟩) (h.2 c)⟩
  have h1 := h.1
  clear h
  induction m with
  | nil => simp [Memory.insert]
  | cons d rest ih =>
    obtain ⟨k, e⟩ := d
    rw [List.pairwise_cons] at h1
    have hk : k ≠ a := hne (k, e) (by simp)
    simp only [Memory.insert]
    split
    · next hlt =>
      refine List.pairwise_cons.mpr ⟨fun x hx => ?_, List.pairwise_cons.mpr h1⟩
      rcases List.mem_cons.mp hx with rfl | hx
      · exact hlt
      · exact Nat.lt_trans hlt (h1.1 x hx)
    · refine List.pairwise_cons.mpr ⟨fun x hx => ?_, ih (fun e he => hne e (by simp [he])) h1.2⟩
      rcases Memory.mem_insert hx with rfl | hx
      · simp only; omega
      · exact h1.1 x hx

/-- A write keeps the canonical form. -/
theorem Memory.wf_write {m : Memory} (h : m.wf) (a : Nat) (b : Byte) : (m.write a b).wf := by
  unfold Memory.write
  split
  · next ha =>
    split
    · exact Memory.wf_erase h a
    · next hb => exact Memory.wf_insert (Memory.wf_erase h a) ha hb Memory.ne_of_mem_erase
  · exact h

/-- Writing a range keeps the canonical form. -/
theorem Memory.wf_writeBytes (bs : List Byte) {m : Memory} (h : m.wf) (a : Nat) : (m.writeBytes a bs).wf := by
  induction bs generalizing m a with
  | nil => exact h
  | cons b bs ih => exact ih (Memory.wf_write h a b) (a + 1)

theorem Memory.wf_writeWord {m : Memory} (h : m.wf) (a : Nat) (w : Word) : (m.writeWord a w).wf :=
  Memory.wf_writeBytes _ h a

/-! ## Equal reads, equal data -/

theorem Memory.read_below {m : Memory} (h : m.Pairwise fun c d => c.1 < d.1) {a : Nat}
    (ha : ∀ e ∈ m, a < e.1) : m.read a = Memory.unlisted := by
  induction m with
  | nil => rfl
  | cons d rest ih =>
    have := ha d (by simp)
    simp only [Memory.read]
    rw [if_neg (by omega)]
    exact ih (List.pairwise_cons.mp h).2 fun e he => ha e (by simp [he])

/-- Two memories in canonical form that read alike everywhere are the same list. -/
theorem Memory.eq_of_read {m n : Memory} (hm : m.wf) (hn : n.wf) (h : ∀ a, m.read a = n.read a) : m = n := by
  induction m generalizing n with
  | nil =>
    cases n with
    | nil => rfl
    | cons d rest =>
      have := h d.1
      simp only [Memory.read, if_true] at this
      exact absurd this.symm (hn.2 d (by simp)).2
  | cons c cs ih =>
    cases n with
    | nil =>
      have := h c.1
      simp only [Memory.read, if_true] at this
      exact absurd this (hm.2 c (by simp)).2
    | cons d ds =>
      obtain ⟨hmc, hms⟩ := List.pairwise_cons.mp hm.1
      obtain ⟨hnd, hns⟩ := List.pairwise_cons.mp hn.1
      have hc := (hm.2 c (by simp)).2
      have hd := (hn.2 d (by simp)).2
      have key : c.1 = d.1 := by
        rcases Nat.lt_trichotomy c.1 d.1 with hlt | heq | hgt
        · have := h c.1
          rw [Memory.read_below hn.1 (a := c.1) (by
            intro e he
            rcases List.mem_cons.mp he with rfl | he
            · exact hlt
            · exact Nat.lt_trans hlt (hnd e he))] at this
          simp only [Memory.read, if_true] at this
          exact absurd this hc
        · exact heq
        · have := h d.1
          rw [Memory.read_below hm.1 (a := d.1) (by
            intro e he
            rcases List.mem_cons.mp he with rfl | he
            · exact hgt
            · exact Nat.lt_trans hgt (hmc e he))] at this
          simp only [Memory.read, if_true] at this
          exact absurd this.symm hd
      have hb : c.2 = d.2 := by
        have := h c.1
        simp only [Memory.read, if_true] at this
        rw [if_pos key.symm] at this
        exact this
      have hcd : c = d := Prod.ext key hb
      subst hcd
      congr 1
      refine ih ⟨hms, fun e he => hm.2 e (by simp [he])⟩ ⟨hns, fun e he => hn.2 e (by simp [he])⟩ fun a => ?_
      by_cases ha : c.1 = a
      · subst ha
        rw [Memory.read_below hms hmc, Memory.read_below hns hnd]
      · have := h a
        simpa only [Memory.read, if_neg ha] using this

end Sys2Proof.Machine
end

