-- ==== Sys2Proof/Laws/Ops.lean ====
section
/-! SUPPORT. One lemma per shared operation: everything it can do. Provers cite these and unfold nothing. -/

namespace Sys2Proof.Machine

/-! ## Checks -/

/-- `guarded` commits its effect or takes its fault, and nothing else (60_exceptions R307). -/
theorem guarded_cases (c : Option Fault) (t : State) :
    (c = none ∧ guarded c t = .next t) ∨ ∃ f, c = some f ∧ guarded c t = .fault f := by
  cases c with
  | none => exact .inl ⟨rfl, rfl⟩
  | some f => exact .inr ⟨f, rfl, rfl⟩

@[simp] theorem guarded_none (t : State) : guarded none t = .next t := rfl

@[simp] theorem guarded_some (f : Fault) (t : State) : guarded (some f) t = .fault f := rfl

theorem guarded_eq_next_iff {c : Option Fault} {t u : State} : guarded c t = .next u ↔ c = none ∧ t = u := by
  cases c <;> simp

theorem guarded_eq_fault_iff {c : Option Fault} {t : State} {f : Fault} :
    guarded c t = .fault f ↔ c = some f := by
  cases c <;> simp

theorem guarded_ne_refused {c : Option Fault} {t : State} {r : Refusal} : guarded c t ≠ .refused r := by
  cases c <;> simp

theorem State.rangeFault_eq_none_iff {s : State} {op : MemOp} {len : Nat} :
    s.rangeFault op len = none ↔ s.ea + len ≤ memSize := by
  unfold State.rangeFault; split <;> simp <;> omega

theorem State.rangeFault_eq_some_iff {s : State} {op : MemOp} {len : Nat} {f : Fault} :
    s.rangeFault op len = some f ↔ memSize < s.ea + len ∧ f = .memoryRange op (trunc16 s.ea) len := by
  unfold State.rangeFault; split <;> simp [eq_comm] <;> omega

theorem State.pushFault_eq_none_iff {s : State} :
    s.pushFault = none ↔ s.sp ≠ 0#8 ∧ s.sp.toNat ≤ s.params.stackSlots := by
  unfold State.pushFault
  split
  · simp_all
  · split <;> simp_all

theorem State.popFault_eq_none_iff {s : State} : s.popFault = none ↔ s.sp.toNat < s.params.stackSlots := by
  unfold State.popFault
  split
  · simp; omega
  · split <;> simp <;> omega

/-- The faults of a push (40_control R120). -/
theorem State.pushFault_eq_some_iff {s : State} {f : Fault} : s.pushFault = some f ↔
    (s.sp = 0#8 ∧ f = .stackOverflow) ∨
      (s.sp ≠ 0#8 ∧ s.params.stackSlots < s.sp.toNat ∧ f = .stackPointerOutOfRange) := by
  unfold State.pushFault
  split
  · next h => exact ⟨fun e => .inl ⟨h, (Option.some.inj e).symm⟩, by
      rintro (⟨-, rfl⟩ | ⟨h', -, -⟩)
      · rfl
      · exact absurd h h'⟩
  · next h =>
    split
    · next h2 => exact ⟨fun e => .inr ⟨h, h2, (Option.some.inj e).symm⟩, by
        rintro (⟨h', -⟩ | ⟨-, -, rfl⟩)
        · exact absurd h' h
        · rfl⟩
    · next h2 => exact ⟨fun e => (nomatch e), by
        rintro (⟨h', -⟩ | ⟨-, h', -⟩)
        · exact absurd h' h
        · exact absurd h' h2⟩

/-- The faults of a pop (40_control R120). -/
theorem State.popFault_eq_some_iff {s : State} {f : Fault} : s.popFault = some f ↔
    (s.sp.toNat = s.params.stackSlots ∧ f = .stackUnderflow) ∨
      (s.params.stackSlots < s.sp.toNat ∧ f = .stackPointerOutOfRange) := by
  unfold State.popFault
  split
  · next h => exact ⟨fun e => .inl ⟨h, (Option.some.inj e).symm⟩, by
      rintro (⟨-, rfl⟩ | ⟨h', -⟩)
      · rfl
      · omega⟩
  · next h =>
    split
    · next h2 => exact ⟨fun e => .inr ⟨h2, (Option.some.inj e).symm⟩, by
        rintro (⟨h', -⟩ | ⟨-, rfl⟩)
        · exact absurd h' h
        · rfl⟩
    · next h2 => exact ⟨fun e => (nomatch e), by
        rintro (⟨h', -⟩ | ⟨h', -⟩)
        · exact absurd h' h
        · exact absurd h' h2⟩

/-! ## Addresses -/

theorem State.ea_lt (s : State) : s.ea < memSize := Nat.mod_lt _ (by decide)

/-! ## Registers loaded from memory -/

/-- Loading registers from number `k` on changes exactly those a byte is given for (43_index_memory R236). -/
theorem getElem_writeRegs (bs : List Byte) (v : Vector Byte 16) (k : Nat) (r : Nat) (hr : r < 16) :
    (writeRegs v k bs)[r] = if k ≤ r then (bs[r - k]?).getD v[r] else v[r] := by
  induction bs generalizing v k with
  | nil => simp [writeRegs]
  | cons b bs ih =>
    rw [writeRegs, ih]
    by_cases h1 : k + 1 ≤ r
    · have e : r - k = (r - (k + 1)) + 1 := by omega
      rw [if_pos h1, if_pos (by omega), e, List.getElem?_cons_succ, Vector.getElem_setIfInBounds_ne (h := by omega)]
    · rw [if_neg h1]
      by_cases h2 : k = r
      · subst h2; simp
      · rw [if_neg (by omega), Vector.getElem_setIfInBounds_ne (h := h2)]

/-! ## The end of a step -/

/-- What the end of a step can be: a commit, a key wait that restores the state, or the rule's own fault
(60_exceptions R300, R307). -/
theorem State.settle_eq_next {s0 u : State} {o : Outcome} (h : s0.settle o = .next u) :
    ∃ t, o = .next t ∧
      ((t.result = .continued ∧ u = t.presentIfDirty.nextInputs) ∨
        (t.result = .awaitingKey ∧ u = ({ s0 with result := .awaitingKey } : State).nextInputs)) := by
  cases o with
  | next t =>
    refine ⟨t, rfl, ?_⟩
    simp only [State.settle, Host.Outcome.next.injEq] at h
    cases ht : t.result with
    | continued => exact .inl ⟨rfl, by rw [ht] at h; exact h.symm⟩
    | awaitingKey => exact .inr ⟨rfl, by rw [ht] at h; exact h.symm⟩
  | fault f => cases h
  | refused r => cases h

theorem State.settle_next_continued {s0 t : State} (h : t.result = .continued) :
    s0.settle (.next t) = .next t.presentIfDirty.nextInputs := by
  simp [State.settle, h]

theorem State.settle_next_awaiting {s0 t : State} (h : t.result = .awaitingKey) :
    s0.settle (.next t) = .next ({ s0 with result := .awaitingKey } : State).nextInputs := by
  simp [State.settle, h]

@[simp] theorem State.settle_fault (s0 : State) (f : Fault) : s0.settle (.fault f) = .fault f := rfl

@[simp] theorem State.settle_refused (s0 : State) (r : Refusal) : s0.settle (.refused r) = .refused r := rfl

/-! ## The fetch -/

theorem State.fetchable_iff {s : State} :
    s.fetchable = true ↔ s.pc.toNat % 2 = 0 ∧ 0x200 ≤ s.pc.toNat ∧ s.pc.toNat ≤ 0xFFE := by
  simp [State.fetchable, and_assoc]

theorem State.fetch_of_fetchable {s : State} (h : s.fetchable = true) :
    s.fetch = .ok [s.mem.read s.pc.toNat, s.mem.read (s.pc.toNat + 1)] := by
  simp [State.fetch, h, Memory.readBytes, List.range_succ]

theorem State.fetch_of_not_fetchable {s : State} (h : s.fetchable = false) :
    s.fetch = .error (.memoryRange .fetch s.pc 2) := by
  simp [State.fetch, h]

/-! ## Memory kept in canonical form by the shared operations -/

theorem State.wf_pushed {s : State} (h : s.mem.wf) (w : Word) : (s.pushed w).mem.wf :=
  Memory.wf_writeWord h _ w

theorem State.wf_stored {s : State} (h : s.mem.wf) (base : Nat) (bs : List Byte) : (s.stored base bs).mem.wf :=
  Memory.wf_writeBytes bs h base

theorem wf_imageCells (image : List Byte) (a : Nat) (h : a + image.length ≤ memSize) :
    Memory.wf (imageCells a image) ∧ ∀ e ∈ imageCells a image, a ≤ e.1 := by
  induction image generalizing a with
  | nil => exact ⟨Memory.wf_nil, by simp [imageCells]⟩
  | cons b bs ih =>
    simp only [List.length_cons] at h
    obtain ⟨⟨hp, hm⟩, hge⟩ := ih (a + 1) (by omega)
    unfold imageCells
    split
    · exact ⟨⟨hp, hm⟩, fun e he => by have := hge e he; omega⟩
    · next hb =>
      refine ⟨⟨List.pairwise_cons.mpr ⟨fun e he => ?_, hp⟩, ?_⟩, ?_⟩
      · exact hge e he
      · simp only [List.mem_cons, forall_eq_or_imp]
        exact ⟨⟨by omega, hb⟩, hm⟩
      · simp only [List.mem_cons, forall_eq_or_imp]
        exact ⟨Nat.le_refl a, fun e he => by have := hge e he; omega⟩

end Sys2Proof.Machine
end

