-- ==== Sys2Proof/Laws/Display.lean ====
section
/-! SUPPORT. The compositor: where pixels lie, what one toggle does, and what a draw leaves alone. -/

namespace Sys2Proof.Machine

/-! ## Placed bits -/

/-- A bit placed on screen lands in the screen (42_display R202). -/
theorem placeBit_in_screen {edge : Edge} {x0 y0 c r px py : Nat} (h : placeBit edge x0 y0 c r = some (px, py)) :
    px < fbWidth ∧ py < fbHeight := by
  cases edge with
  | wrap =>
    simp only [placeBit, Option.some.injEq, Prod.mk.injEq] at h
    obtain ⟨rfl, rfl⟩ := h
    exact ⟨Nat.mod_lt _ (by decide), Nat.mod_lt _ (by decide)⟩
  | clip =>
    simp only [placeBit] at h
    split at h
    · next hc =>
      simp only [Option.some.injEq, Prod.mk.injEq] at h
      obtain ⟨rfl, rfl⟩ := h
      exact hc
    · cases h

/-! ## One toggle (42_display R202) -/

theorem getLsbD_one_shiftLeft (k j : Nat) (hk : k < 8) : ((1#8) <<< k).getLsbD j = decide (j = k) := by
  by_cases hj : j < 8
  · by_cases h : j = k
    · subst h; simp [hj]
    · simp only [BitVec.getLsbD_shiftLeft, hj, decide_true, Bool.true_and, BitVec.getLsbD_one, h, decide_false]
      by_cases hlt : j < k
      · simp [hlt]
      · simp only [hlt, decide_false, Bool.not_false, Bool.true_and]
        have : j - k ≠ 0 := by omega
        simp [this]
  · have : j ≠ k := by omega
    simp [BitVec.getLsbD_of_ge _ _ (Nat.le_of_not_lt hj), this]

/-- A toggle changes its own pixel and no other. -/
theorem Canvas.pixel_toggle (p : Params) (cv : Canvas) {px py qx qy : Nat} (hx : px < fbWidth) (hy : py < fbHeight)
    (hq : qx < fbWidth) :
    (cv.toggle p px py).mem.pixel p qx qy =
      (cv.mem.pixel p qx qy ^^ decide (qx = px ∧ qy = py)) := by
  unfold Canvas.toggle Memory.pixel
  simp only
  rw [Memory.read_write _ (p.fbAddr_lt_memSize hx hy)]
  split
  · next ha =>
    rw [BitVec.getLsbD_xor, getLsbD_one_shiftLeft _ _ (fbBit_lt px), ha]
    congr 1
    by_cases hb : fbBit qx = fbBit px
    · have := p.pixel_place_inj hq hx ha hb
      simp [this]
    · have : qx ≠ px := fun e => hb (by rw [e])
      simp [hb, this]
  · next ha =>
    have : ¬ (qx = px ∧ qy = py) := fun e => ha (by rw [e.1, e.2])
    simp [this]

/-- A toggle leaves every byte but the pixel's alone. -/
theorem Canvas.read_toggle_other (p : Params) (cv : Canvas) {px py a : Nat} (h : a ≠ p.fbAddr px py) :
    (cv.toggle p px py).mem.read a = cv.mem.read a :=
  Memory.read_write_other _ _ h

theorem Canvas.wf_toggle (p : Params) {cv : Canvas} (h : cv.mem.wf) (px py : Nat) : (cv.toggle p px py).mem.wf :=
  Memory.wf_write h _ _

theorem Canvas.hit_toggle (p : Params) (cv : Canvas) (px py : Nat) :
    (cv.toggle p px py).hit = (cv.hit || cv.mem.pixel p px py) := rfl

/-! ## A whole draw -/

theorem Canvas.drawBits_some (p : Params) (x0 y0 : Nat) (cv : Canvas) {c r px py : Nat} (rest : List (Nat × Nat))
    (h : placeBit p.drawEdge x0 y0 c r = some (px, py)) :
    Canvas.drawBits p x0 y0 cv ((c, r) :: rest) = Canvas.drawBits p x0 y0 (cv.toggle p px py) rest := by
  rw [Canvas.drawBits, h]

theorem Canvas.drawBits_none (p : Params) (x0 y0 : Nat) (cv : Canvas) {c r : Nat} (rest : List (Nat × Nat))
    (h : placeBit p.drawEdge x0 y0 c r = none) :
    Canvas.drawBits p x0 y0 cv ((c, r) :: rest) = Canvas.drawBits p x0 y0 cv rest := by
  rw [Canvas.drawBits, h]

/-- What every toggle on screen keeps, a draw keeps. -/
theorem Canvas.drawBits_induction (p : Params) (x0 y0 : Nat) (motive : Canvas → Prop)
    (step : ∀ cv px py, px < fbWidth → py < fbHeight → motive cv → motive (cv.toggle p px py))
    (bits : List (Nat × Nat)) (cv : Canvas) (h : motive cv) : motive (Canvas.drawBits p x0 y0 cv bits) := by
  induction bits generalizing cv with
  | nil => exact h
  | cons e rest ih =>
    obtain ⟨c, r⟩ := e
    cases hp : placeBit p.drawEdge x0 y0 c r with
    | none => rw [Canvas.drawBits_none p x0 y0 cv rest hp]; exact ih cv h
    | some q =>
      obtain ⟨px, py⟩ := q
      rw [Canvas.drawBits_some p x0 y0 cv rest hp]
      have hs := placeBit_in_screen hp
      exact ih _ (step cv px py hs.1 hs.2 h)

/-- A draw keeps memory's canonical form. -/
theorem Canvas.wf_drawBits (p : Params) (x0 y0 : Nat) (bits : List (Nat × Nat)) {cv : Canvas} (h : cv.mem.wf) :
    (Canvas.drawBits p x0 y0 cv bits).mem.wf :=
  Canvas.drawBits_induction p x0 y0 (fun c => c.mem.wf) (fun _ px py _ _ hc => Canvas.wf_toggle p hc px py) bits cv h

/-- The bits of a sprite: column `c` of row `r` is listed exactly when that bit is set (42_display R202). -/
theorem mem_spriteBits (bs : List Byte) (r0 c r : Nat) :
    (c, r) ∈ spriteBits r0 bs ↔
      c < 8 ∧ r0 ≤ r ∧ ∃ b, bs[r - r0]? = some b ∧ b.getLsbD (7 - c) = true := by
  induction bs generalizing r0 with
  | nil => simp [spriteBits]
  | cons b bs ih =>
    simp only [spriteBits, List.mem_append, List.mem_map, setColumns, List.mem_filter, List.mem_range, Prod.mk.injEq, ih]
    constructor
    · rintro (⟨c', ⟨h1, h2⟩, rfl, rfl⟩ | ⟨h1, h2, b', h3, h4⟩)
      · exact ⟨h1, Nat.le_refl _, b, by simp, h2⟩
      · refine ⟨h1, by omega, b', ?_, h4⟩
        rw [show r - r0 = (r - (r0 + 1)) + 1 by omega, List.getElem?_cons_succ]; exact h3
    · rintro ⟨h1, h2, b', h3, h4⟩
      by_cases hr : r = r0
      · subst hr
        simp only [Nat.sub_self, List.getElem?_cons_zero, Option.some.injEq] at h3
        exact .inl ⟨c, ⟨h1, by rw [h3]; exact h4⟩, rfl, rfl⟩
      · rw [show r - r0 = (r - (r0 + 1)) + 1 by omega, List.getElem?_cons_succ] at h3
        exact .inr ⟨h1, by omega, b', h3, h4⟩

end Sys2Proof.Machine
end

