-- ==== Sys2Proof/Laws/PerInstr.lean ====
section
/-! SUPPORT. Facts stated instruction by instruction: the opcode an instruction encodes to matches its row of the opcode
map (30_encoding R96). -/

namespace Sys2Proof

/-- The opcode of an instruction matches its row of the opcode map. -/
def Laws.EncodeHitsRow.Statement (i : Instr) : Prop := (opcodeRow i).hits (encodeWord i) = true

theorem OpcodeRow.hits_iff {r : OpcodeRow} {op : Word} : r.hits op = true ↔ op &&& r.mask = r.pattern := by
  simp [OpcodeRow.hits]

/-- Format NNN under the mask 0xF000. -/
theorem packNNN_hits (pat : Word) (h : hexDigit 2 pat = 0 ∧ hexDigit 1 pat = 0 ∧ hexDigit 0 pat = 0) (nnn : BitVec 12) :
    packNNN (hexDigit 3 pat) nnn &&& 0xF000#16 = pat :=
  (mask_F000 _ pat h.1 h.2.1 h.2.2).mpr (fieldG_packNNN _ _)

/-- Format XKK under the mask 0xF000. -/
theorem packXKK_hits (pat : Word) (h : hexDigit 2 pat = 0 ∧ hexDigit 1 pat = 0 ∧ hexDigit 0 pat = 0) (x : Reg) (kk : Byte) :
    packXKK (hexDigit 3 pat) x kk &&& 0xF000#16 = pat :=
  (mask_F000 _ pat h.1 h.2.1 h.2.2).mpr (fieldG_packXKK _ _ _)

/-- Format XYN with a free n under the mask 0xF000. -/
theorem packXYN_hits_group (pat : Word) (h : hexDigit 2 pat = 0 ∧ hexDigit 1 pat = 0 ∧ hexDigit 0 pat = 0)
    (x y : Reg) (n : Fin 16) : packXYN (hexDigit 3 pat) x y n &&& 0xF000#16 = pat :=
  (mask_F000 _ pat h.1 h.2.1 h.2.2).mpr (fieldG_packXYN _ _ _ _)

/-- Format XYN with a fixed n under the mask 0xF00F. -/
theorem packXYN_hits (pat : Word) (h : hexDigit 2 pat = 0 ∧ hexDigit 1 pat = 0) (x y : Reg) :
    packXYN (hexDigit 3 pat) x y (fieldN pat) &&& 0xF00F#16 = pat :=
  (mask_F00F _ pat h.1 h.2).mpr ⟨fieldG_packXYN _ _ _ _, fieldN_packXYN _ _ _ _⟩

/-- Format XSUB under the mask 0xF0FF. -/
theorem packXSUB_hits (pat : Word) (h : hexDigit 2 pat = 0) (x : Reg) :
    packXKK (hexDigit 3 pat) x (fieldKK pat) &&& 0xF0FF#16 = pat :=
  (mask_F0FF _ pat h).mpr ⟨fieldG_packXKK _ _ _, fieldKK_packXKK _ _ _⟩

theorem Laws.EncodeHitsRow.cls : Laws.EncodeHitsRow.Statement Instr.cls :=
  OpcodeRow.hits_iff.mpr (by decide)

theorem Laws.EncodeHitsRow.ret : Laws.EncodeHitsRow.Statement Instr.ret :=
  OpcodeRow.hits_iff.mpr (by decide)

theorem Laws.EncodeHitsRow.jp (nnn : BitVec 12) : Laws.EncodeHitsRow.Statement (Instr.jp nnn) :=
  OpcodeRow.hits_iff.mpr (packNNN_hits 0x1000#16 (by decide) nnn)

theorem Laws.EncodeHitsRow.call (nnn : BitVec 12) : Laws.EncodeHitsRow.Statement (Instr.call nnn) :=
  OpcodeRow.hits_iff.mpr (packNNN_hits 0x2000#16 (by decide) nnn)

theorem Laws.EncodeHitsRow.seImm (x : Reg) (kk : Byte) : Laws.EncodeHitsRow.Statement (Instr.seImm x kk) :=
  OpcodeRow.hits_iff.mpr (packXKK_hits 0x3000#16 (by decide) x kk)

theorem Laws.EncodeHitsRow.sneImm (x : Reg) (kk : Byte) : Laws.EncodeHitsRow.Statement (Instr.sneImm x kk) :=
  OpcodeRow.hits_iff.mpr (packXKK_hits 0x4000#16 (by decide) x kk)

theorem Laws.EncodeHitsRow.seReg (x y : Reg) : Laws.EncodeHitsRow.Statement (Instr.seReg x y) :=
  OpcodeRow.hits_iff.mpr (packXYN_hits 0x5000#16 (by decide) x y)

theorem Laws.EncodeHitsRow.ldImm (x : Reg) (kk : Byte) : Laws.EncodeHitsRow.Statement (Instr.ldImm x kk) :=
  OpcodeRow.hits_iff.mpr (packXKK_hits 0x6000#16 (by decide) x kk)

theorem Laws.EncodeHitsRow.addImm (x : Reg) (kk : Byte) : Laws.EncodeHitsRow.Statement (Instr.addImm x kk) :=
  OpcodeRow.hits_iff.mpr (packXKK_hits 0x7000#16 (by decide) x kk)

theorem Laws.EncodeHitsRow.ldReg (x y : Reg) : Laws.EncodeHitsRow.Statement (Instr.ldReg x y) :=
  OpcodeRow.hits_iff.mpr (packXYN_hits 0x8000#16 (by decide) x y)

theorem Laws.EncodeHitsRow.orReg (x y : Reg) : Laws.EncodeHitsRow.Statement (Instr.orReg x y) :=
  OpcodeRow.hits_iff.mpr (packXYN_hits 0x8001#16 (by decide) x y)

theorem Laws.EncodeHitsRow.andReg (x y : Reg) : Laws.EncodeHitsRow.Statement (Instr.andReg x y) :=
  OpcodeRow.hits_iff.mpr (packXYN_hits 0x8002#16 (by decide) x y)

theorem Laws.EncodeHitsRow.xorReg (x y : Reg) : Laws.EncodeHitsRow.Statement (Instr.xorReg x y) :=
  OpcodeRow.hits_iff.mpr (packXYN_hits 0x8003#16 (by decide) x y)

theorem Laws.EncodeHitsRow.addReg (x y : Reg) : Laws.EncodeHitsRow.Statement (Instr.addReg x y) :=
  OpcodeRow.hits_iff.mpr (packXYN_hits 0x8004#16 (by decide) x y)

theorem Laws.EncodeHitsRow.subReg (x y : Reg) : Laws.EncodeHitsRow.Statement (Instr.subReg x y) :=
  OpcodeRow.hits_iff.mpr (packXYN_hits 0x8005#16 (by decide) x y)

theorem Laws.EncodeHitsRow.shr (x y : Reg) : Laws.EncodeHitsRow.Statement (Instr.shr x y) :=
  OpcodeRow.hits_iff.mpr (packXYN_hits 0x8006#16 (by decide) x y)

theorem Laws.EncodeHitsRow.subnReg (x y : Reg) : Laws.EncodeHitsRow.Statement (Instr.subnReg x y) :=
  OpcodeRow.hits_iff.mpr (packXYN_hits 0x8007#16 (by decide) x y)

theorem Laws.EncodeHitsRow.shl (x y : Reg) : Laws.EncodeHitsRow.Statement (Instr.shl x y) :=
  OpcodeRow.hits_iff.mpr (packXYN_hits 0x800E#16 (by decide) x y)

theorem Laws.EncodeHitsRow.sneReg (x y : Reg) : Laws.EncodeHitsRow.Statement (Instr.sneReg x y) :=
  OpcodeRow.hits_iff.mpr (packXYN_hits 0x9000#16 (by decide) x y)

theorem Laws.EncodeHitsRow.ldI (nnn : BitVec 12) : Laws.EncodeHitsRow.Statement (Instr.ldI nnn) :=
  OpcodeRow.hits_iff.mpr (packNNN_hits 0xA000#16 (by decide) nnn)

theorem Laws.EncodeHitsRow.jpV0 (nnn : BitVec 12) : Laws.EncodeHitsRow.Statement (Instr.jpV0 nnn) :=
  OpcodeRow.hits_iff.mpr (packNNN_hits 0xB000#16 (by decide) nnn)

theorem Laws.EncodeHitsRow.rnd (x : Reg) (kk : Byte) : Laws.EncodeHitsRow.Statement (Instr.rnd x kk) :=
  OpcodeRow.hits_iff.mpr (packXKK_hits 0xC000#16 (by decide) x kk)

theorem Laws.EncodeHitsRow.drw (x y : Reg) (n : Fin 16) : Laws.EncodeHitsRow.Statement (Instr.drw x y n) :=
  OpcodeRow.hits_iff.mpr (packXYN_hits_group 0xD000#16 (by decide) x y n)

theorem Laws.EncodeHitsRow.skp (x : Reg) : Laws.EncodeHitsRow.Statement (Instr.skp x) :=
  OpcodeRow.hits_iff.mpr (packXSUB_hits 0xE09E#16 (by decide) x)

theorem Laws.EncodeHitsRow.sknp (x : Reg) : Laws.EncodeHitsRow.Statement (Instr.sknp x) :=
  OpcodeRow.hits_iff.mpr (packXSUB_hits 0xE0A1#16 (by decide) x)

theorem Laws.EncodeHitsRow.ldVxDT (x : Reg) : Laws.EncodeHitsRow.Statement (Instr.ldVxDT x) :=
  OpcodeRow.hits_iff.mpr (packXSUB_hits 0xF007#16 (by decide) x)

theorem Laws.EncodeHitsRow.ldVxK (x : Reg) : Laws.EncodeHitsRow.Statement (Instr.ldVxK x) :=
  OpcodeRow.hits_iff.mpr (packXSUB_hits 0xF00A#16 (by decide) x)

theorem Laws.EncodeHitsRow.ldDTVx (x : Reg) : Laws.EncodeHitsRow.Statement (Instr.ldDTVx x) :=
  OpcodeRow.hits_iff.mpr (packXSUB_hits 0xF015#16 (by decide) x)

theorem Laws.EncodeHitsRow.ldSTVx (x : Reg) : Laws.EncodeHitsRow.Statement (Instr.ldSTVx x) :=
  OpcodeRow.hits_iff.mpr (packXSUB_hits 0xF018#16 (by decide) x)

theorem Laws.EncodeHitsRow.addIVx (x : Reg) : Laws.EncodeHitsRow.Statement (Instr.addIVx x) :=
  OpcodeRow.hits_iff.mpr (packXSUB_hits 0xF01E#16 (by decide) x)

theorem Laws.EncodeHitsRow.ldFVx (x : Reg) : Laws.EncodeHitsRow.Statement (Instr.ldFVx x) :=
  OpcodeRow.hits_iff.mpr (packXSUB_hits 0xF029#16 (by decide) x)

theorem Laws.EncodeHitsRow.ldBVx (x : Reg) : Laws.EncodeHitsRow.Statement (Instr.ldBVx x) :=
  OpcodeRow.hits_iff.mpr (packXSUB_hits 0xF033#16 (by decide) x)

theorem Laws.EncodeHitsRow.storeRegs (x : Reg) : Laws.EncodeHitsRow.Statement (Instr.storeRegs x) :=
  OpcodeRow.hits_iff.mpr (packXSUB_hits 0xF055#16 (by decide) x)

theorem Laws.EncodeHitsRow.loadRegs (x : Reg) : Laws.EncodeHitsRow.Statement (Instr.loadRegs x) :=
  OpcodeRow.hits_iff.mpr (packXSUB_hits 0xF065#16 (by decide) x)

end Sys2Proof
end

