-- ==== Sys2Proof/Tests/Slice0.lean ====
section
/-! SUPPORT. Tests on fixed values, their expected results taken from spec/95_test_vectors.md and the rules' examples,
the smoke tests of the well-formedness checks, and a witness for every statement that has hypotheses. -/

namespace Sys2Proof.Tests

open Sys2Proof.Machine

/-! ## Helpers -/

/-- The reset state with an opcode at 0x200. -/
def load1 (w : Nat) : State := State.reset.withFetchWord 16 w

/-- A state with bytes stored from an address on. -/
def put (a : Nat) (bs : List Byte) (s : State) : State := s.setMem (s.mem.writeBytes a bs)

/-- Whether an outcome is a next state with a property. -/
def answers (o : Outcome) (p : State → Bool) : Bool :=
  match o with
  | .next t => p t
  | .fault _ => false
  | .refused _ => false

/-- Whether an outcome is a given fault. -/
def faults (o : Outcome) (f : Fault) : Bool :=
  match o with
  | .next _ => false
  | .fault g => g == f
  | .refused _ => false

/-- Inputs with the keys of a list held. -/
def keys (held : List Nat) (press : Option Key) (rnd : Byte) : Inputs :=
  { held := Vector.ofFn fun k => held.contains k.val, press := press, rnd := rnd }

/-! ## Decoding (30_encoding R96, R98) -/

theorem test_decode_group0 : decodeWord 0b0000000011100000#16 = some .cls ∧ decodeWord 0b0000000011101110#16 = some .ret := by decide
theorem test_decode_jp : decodeWord 0b0001101010111100#16 = some (.jp 0xABC#12) := by decide
theorem test_decode_call : decodeWord 0b0010001000010000#16 = some (.call 0x210#12) := by decide
theorem test_decode_seImm : decodeWord 0b0011001101000010#16 = some (.seImm 3 0x42#8) := by decide
theorem test_decode_sneImm : decodeWord 0b0100001101000011#16 = some (.sneImm 3 0x43#8) := by decide
theorem test_decode_seReg : decodeWord 0b0101000100100000#16 = some (.seReg 1 2) := by decide
theorem test_decode_ldImm : decodeWord 0b0110101010011100#16 = some (.ldImm 10 0x9C#8) := by decide
theorem test_decode_addImm : decodeWord 0b0111000111111111#16 = some (.addImm 1 0xFF#8) := by decide
theorem test_decode_ldReg : decodeWord 0b1000000100100000#16 = some (.ldReg 1 2) := by decide
theorem test_decode_orReg : decodeWord 0b1000000100100001#16 = some (.orReg 1 2) := by decide
theorem test_decode_andReg : decodeWord 0b1000000100100010#16 = some (.andReg 1 2) := by decide
theorem test_decode_xorReg : decodeWord 0b1000000100100011#16 = some (.xorReg 1 2) := by decide
theorem test_decode_addReg : decodeWord 0b1000111100010100#16 = some (.addReg 15 1) := by decide
theorem test_decode_subReg : decodeWord 0b1000000100100101#16 = some (.subReg 1 2) := by decide
theorem test_decode_shr : decodeWord 0b1000000100110110#16 = some (.shr 1 3) := by decide
theorem test_decode_subnReg : decodeWord 0b1000000100100111#16 = some (.subnReg 1 2) := by decide
theorem test_decode_shl : decodeWord 0b1000111100001110#16 = some (.shl 15 0) := by decide
theorem test_decode_sneReg : decodeWord 0b1001000100100000#16 = some (.sneReg 1 2) := by decide
theorem test_decode_ldI : decodeWord 0b1010001100000000#16 = some (.ldI 0x300#12) := by decide
theorem test_decode_jpV0 : decodeWord 0b1011111111111111#16 = some (.jpV0 0xFFF#12) := by decide
theorem test_decode_rnd : decodeWord 0b1100001100001111#16 = some (.rnd 3 0x0F#8) := by decide
theorem test_decode_drw : decodeWord 0b1101000000010010#16 = some (.drw 0 1 2) := by decide
theorem test_decode_skp : decodeWord 0b1110001010011110#16 = some (.skp 2) := by decide
theorem test_decode_sknp : decodeWord 0b1110001010100001#16 = some (.sknp 2) := by decide
theorem test_decode_ldVxDT : decodeWord 0b1111010000000111#16 = some (.ldVxDT 4) := by decide
theorem test_decode_ldVxK : decodeWord 0b1111001100001010#16 = some (.ldVxK 3) := by decide
theorem test_decode_ldDTVx : decodeWord 0b1111010000010101#16 = some (.ldDTVx 4) := by decide
theorem test_decode_ldSTVx : decodeWord 0b1111010000011000#16 = some (.ldSTVx 4) := by decide
theorem test_decode_addIVx : decodeWord 0b1111001000011110#16 = some (.addIVx 2) := by decide
theorem test_decode_ldFVx : decodeWord 0b1111010100101001#16 = some (.ldFVx 5) := by decide
theorem test_decode_ldBVx : decodeWord 0b1111101000110011#16 = some (.ldBVx 10) := by decide
theorem test_decode_storeRegs : decodeWord 0b1111001001010101#16 = some (.storeRegs 2) := by decide
theorem test_decode_loadRegs : decodeWord 0b1111001001100101#16 = some (.loadRegs 2) := by decide

/-- The illegal words of vectors F6 to F15. -/
theorem test_decode_illegal_low : decodeWord 0x0123#16 = none ∧ decodeWord 0x00E1#16 = none ∧ decodeWord 0x5121#16 = none ∧
    decodeWord 0x8128#16 = none ∧ decodeWord 0x812F#16 = none := by decide
theorem test_decode_illegal_high : decodeWord 0x9121#16 = none ∧ decodeWord 0xE19F#16 = none ∧ decodeWord 0xE1FF#16 = none ∧
    decodeWord 0xF100#16 = none ∧ decodeWord 0xF1FF#16 = none := by decide

theorem test_decode_table_word : decodeTableWord 16 0xD012 = some (.drw 0 1 2) := by decide
theorem test_decode_truncated : decode [0x12#8] = .error .truncated := by decide
theorem test_encode_bytes : encode (.addReg 1 2) = [0x81#8, 0x24#8] := by decide

/-! ## Well-formedness: an ill-formed term for each check (00_scope R6) -/

theorem test_wf_default : Params.default.wf = true := by decide
theorem test_wf_no_slots : { Params.default with stackSlots := 0 : Params }.hasSlots = false := by decide
theorem test_wf_slots_past_sp : { Params.default with stackSlots := 256 : Params }.slotsFitSp = false := by decide
theorem test_wf_no_user_region : { Params.default with stackSlots := 1664 : Params }.hasUserRegion = false := by decide
theorem test_wf_font_outside : { Params.default with fontBase := 0xFB1 : Params }.fontInMemory = false := by decide
theorem test_wf_no_stride : { Params.default with glyphStride := 0 : Params }.hasStride = false := by decide
theorem test_wf_short_image : reservedImageWf (List.replicate 511 0#8) = false := by
  rw [reservedImageWf, List.length_replicate]; decide
theorem test_wf_memory_zero_entry : ¬ Memory.wf [(0x300, 0#8)] := by decide
theorem test_wf_memory_order : ¬ Memory.wf [(0x301, 1#8), (0x300, 1#8)] := by decide
theorem test_wf_memory_outside : ¬ Memory.wf [(0x1000, 1#8)] := by decide

/-! ## Fetch (vectors F1 to F5) -/

theorem test_fetch_odd : faults (step (State.reset.setPc 0x201#16)) (.memoryRange .fetch 0x201#16 2) = true := by decide
theorem test_fetch_past_memory :
    faults (step (State.reset.setPc 0x1000#16)) (.memoryRange .fetch 0x1000#16 2) = true := by decide
theorem test_fetch_reserved : faults (step (State.reset.setPc 0x100#16)) (.memoryRange .fetch 0x100#16 2) = true := by decide
theorem test_fetch_last_word :
    faults (step (State.reset.setPc 0xFFE#16)) (.illegalOpcode 0#16 0xFFE#16) = true := by decide
theorem test_illegal_word : faults (step (load1 0x8128)) (.illegalOpcode 0x8128#16 0x200#16) = true := by decide

/-! ## Control transfer (vectors C1 to C14) -/

theorem test_jp : answers (step (load1 0x1ABC)) (fun t => t.pc == 0xABC#16) = true := by decide
theorem test_call : answers (step (load1 0x2210))
    (fun t => t.sp == 15#8 && t.mem.read 0xFFE == 0x02#8 && t.mem.read 0xFFF == 0x02#8 && t.pc == 0x210#16) = true := by decide
theorem test_call_full : faults (step ((load1 0x2210).setSp 0#8)) .stackOverflow = true := by decide
theorem test_ret : answers (step (put 0xFFE [0x02#8, 0x06#8] ((load1 0x00EE).setSp 15#8)))
    (fun t => t.sp == 16#8 && t.pc == 0x206#16 && t.mem.read 0xFFF == 0x06#8) = true := by decide
theorem test_ret_empty : faults (step (load1 0x00EE)) .stackUnderflow = true := by decide
theorem test_seImm_taken : answers (step ((load1 0x3342).setV 3 0x42#8)) (fun t => t.pc == 0x204#16) = true := by decide
theorem test_seImm_not_taken : answers (step ((load1 0x3343).setV 3 0x42#8)) (fun t => t.pc == 0x202#16) = true := by decide
theorem test_sneImm_taken : answers (step ((load1 0x4343).setV 3 0x42#8)) (fun t => t.pc == 0x204#16) = true := by decide
theorem test_sneImm_not_taken : answers (step ((load1 0x4342).setV 3 0x42#8)) (fun t => t.pc == 0x202#16) = true := by decide
theorem test_seReg_not_taken : answers (step (((load1 0x5120).setV 1 7#8).setV 2 8#8)) (fun t => t.pc == 0x202#16) = true := by decide
theorem test_seReg_same : answers (step ((load1 0x5110).setV 1 7#8)) (fun t => t.pc == 0x204#16) = true := by decide
theorem test_sneReg_taken : answers (step (((load1 0x9120).setV 1 7#8).setV 2 8#8)) (fun t => t.pc == 0x204#16) = true := by decide
theorem test_sneReg_same : answers (step ((load1 0x9110).setV 1 7#8)) (fun t => t.pc == 0x202#16) = true := by decide
theorem test_jpV0 : answers (step ((load1 0xB300).setV 0 0x10#8)) (fun t => t.pc == 0x310#16) = true := by decide
theorem test_jpV0_wraps : answers (step ((load1 0xBFFF).setV 0 0xFF#8)) (fun t => t.pc == 0x0FE#16) = true := by decide

/-! ## Register moves, ALU and random (vectors A1 to A30) -/

theorem test_ldImm : answers (step (load1 0x6A9C)) (fun t => t.getV 10 == 0x9C#8 && t.pc == 0x202#16) = true := by decide
theorem test_addImm_no_carry : answers (step (((load1 0x7101).setV 1 0xFF#8).setV 15 7#8))
    (fun t => t.getV 1 == 0#8 && t.getV 15 == 7#8) = true := by decide
theorem test_addImm_vF : answers (step ((load1 0x7F20).setV 15 0xF0#8)) (fun t => t.getV 15 == 0x10#8) = true := by decide
theorem test_ldReg : answers (step ((load1 0x8120).setV 2 0x33#8)) (fun t => t.getV 1 == 0x33#8) = true := by decide
theorem test_orReg_vF : answers (step (((load1 0x8F21).setV 15 1#8).setV 2 0x80#8)) (fun t => t.getV 15 == 0x81#8) = true := by decide
theorem test_andReg : answers (step (((load1 0x8122).setV 1 0xF0#8).setV 2 0x3C#8)) (fun t => t.getV 1 == 0x30#8) = true := by decide
theorem test_xorReg : answers (step (((load1 0x8123).setV 1 0xF0#8).setV 2 0x3C#8)) (fun t => t.getV 1 == 0xCC#8) = true := by decide
theorem test_addReg : answers (step (((load1 0x8124).setV 1 0xFF#8).setV 2 0xFF#8))
    (fun t => t.getV 1 == 0xFE#8 && t.getV 15 == 1#8) = true := by decide
theorem test_addReg_vF : answers (step (((load1 0x81F4).setV 1 0x10#8).setV 15 0xF5#8))
    (fun t => t.getV 1 == 0x05#8 && t.getV 15 == 1#8) = true := by decide
theorem test_subReg_borrow : answers (step (((load1 0x8125).setV 1 23#8).setV 2 123#8))
    (fun t => t.getV 1 == 156#8 && t.getV 15 == 0#8) = true := by decide
theorem test_subReg_equal : answers (step (((load1 0x8125).setV 1 7#8).setV 2 7#8))
    (fun t => t.getV 1 == 0#8 && t.getV 15 == 0#8) = true := by decide
theorem test_shr : answers (step (((load1 0x8136).setV 1 0x80#8).setV 3 0xAA#8))
    (fun t => t.getV 1 == 0x40#8 && t.getV 15 == 0#8 && t.getV 3 == 0xAA#8) = true := by decide
theorem test_shr_vF : answers (step ((load1 0x8F06).setV 15 3#8)) (fun t => t.getV 15 == 1#8) = true := by decide
theorem test_subnReg : answers (step (((load1 0x8127).setV 1 0x30#8).setV 2 0x10#8))
    (fun t => t.getV 1 == 0xE0#8 && t.getV 15 == 0#8) = true := by decide
theorem test_subnReg_vF : answers (step (((load1 0x8F17).setV 15 2#8).setV 1 7#8)) (fun t => t.getV 15 == 1#8) = true := by decide
theorem test_shl : answers (step ((load1 0x810E).setV 1 0x81#8)) (fun t => t.getV 1 == 2#8 && t.getV 15 == 1#8) = true := by decide
theorem test_shl_vF : answers (step ((load1 0x8F0E).setV 15 0x7F#8)) (fun t => t.getV 15 == 0#8) = true := by decide
theorem test_rnd : answers (step { load1 0xC30F with inputs := [keys [] none 0xAB#8] }) (fun t => t.getV 3 == 0x0B#8) = true := by decide

/-! ## Display (vectors D1 to D12) -/

set_option maxRecDepth 4000 in
theorem test_cls : answers (step (put 0xEE0 [0xFF#8] (put 0xFDF [0x01#8] (load1 0x00E0))))
    (fun t => t.mem.read 0xEE0 == 0#8 && t.mem.read 0xFDF == 0#8 && t.presents.length == 1 && t.dirty == false) = true := by decide
theorem test_drw_wrap : answers (step (put 0x300 [0xC3#8, 0x81#8] ((((load1 0xD012).setV 0 62#8).setV 1 31#8).setI 0x300#16)))
    (fun t => t.mem.readBytes 0xFD8 8 == [0x0C#8, 0, 0, 0, 0, 0, 0, 0x03#8] && t.mem.read 0xEE7 == 0x02#8 &&
      t.mem.read 0xEE0 == 0x04#8 && t.getV 15 == 0#8) = true := by decide
theorem test_drw_clip : answers (step { put 0x300 [0xC3#8, 0x81#8] ((((load1 0xD012).setV 0 62#8).setV 1 31#8).setI 0x300#16) with
      params := { Params.default with drawEdge := .clip } })
    (fun t => t.mem.read 0xFDF == 0x03#8 && t.mem.read 0xFD8 == 0#8 && t.mem.read 0xEE0 == 0#8) = true := by decide

/-! ## Index register and memory transfers (vectors M1 to M22) -/

theorem test_ldI : answers (step (load1 0xA300)) (fun t => t.i == 0x300#16) = true := by decide
theorem test_addIVx_wraps : answers (step (((load1 0xF21E).setI 0xFFF#16).setV 2 2#8)) (fun t => t.i == 1#16) = true := by decide
theorem test_ldFVx : answers (step ((load1 0xF529).setV 5 0x1A#8)) (fun t => t.i == 0x32#16) = true := by decide
theorem test_ldBVx : answers (step (((load1 0xF033).setV 0 255#8).setI 0x1300#16))
    (fun t => t.mem.readBytes 0x300 3 == [2#8, 5#8, 5#8] && t.i == 0x1300#16) = true := by decide
theorem test_ldBVx_fault : faults (step ((load1 0xF033).setI 0xFFE#16)) (.memoryRange .bcd 0xFFE#16 3) = true := by decide
theorem test_storeRegs_end : answers (step ((((load1 0xF155).setI 0xFFE#16).setV 0 0x12#8).setV 1 0x34#8))
    (fun t => t.mem.read 0xFFE == 0x12#8 && t.mem.read 0xFFF == 0x34#8 && t.i == 0x1000#16) = true := by decide
theorem test_storeRegs_framebuffer : answers (step (((load1 0xF255).setI 0xEE0#16).setV 0 0xFF#8))
    (fun t => t.mem.read 0xEE0 == 0xFF#8 && t.presents.length == 1) = true := by decide
theorem test_loadRegs_masks : answers (step (put 0x000 [0x77#8] ((load1 0xF065).setI 0x1000#16)))
    (fun t => t.getV 0 == 0x77#8 && t.i == 0x1001#16) = true := by decide
theorem test_loadRegs_fault : faults (step ((load1 0xF165).setI 0xFFF#16)) (.memoryRange .loadRegs 0xFFF#16 2) = true := by decide

/-! ## Keypad and timers (vectors K1 to K13) -/

theorem test_skp_low_nibble : answers (step { (load1 0xE29E).setV 2 0x13#8 with inputs := [keys [3] none 0#8] })
    (fun t => t.pc == 0x204#16) = true := by decide
theorem test_sknp_held : answers (step { (load1 0xE2A1).setV 2 3#8 with inputs := [keys [3] none 0#8] })
    (fun t => t.pc == 0x202#16) = true := by decide
theorem test_sknp_not_held : answers (step { (load1 0xE2A1).setV 2 3#8 with inputs := [keys [] none 0#8] })
    (fun t => t.pc == 0x204#16) = true := by decide
theorem test_ldVxK_awaits : answers (step { load1 0xF30A with inputs := [keys [] none 0#8] })
    (fun t => t.result == .awaitingKey && t.pc == 0x200#16 && t.v == State.reset.v) = true := by decide
theorem test_ldVxK_pressed : answers (step { load1 0xF30A with inputs := [keys [] (some 7) 0#8] })
    (fun t => t.result == .continued && t.pc == 0x202#16 && t.getV 3 == 7#8) = true := by decide
theorem test_ldVxDT : answers (step ((load1 0xF407).setDt 0x3C#8)) (fun t => t.getV 4 == 0x3C#8 && t.dt == 0x3C#8) = true := by decide
theorem test_ldDTVx : answers (step ((load1 0xF415).setV 4 0x3C#8)) (fun t => t.dt == 0x3C#8) = true := by decide
theorem test_ldSTVx : answers (step ((load1 0xF418).setV 4 5#8)) (fun t => t.st == 5#8 && t.dt == 0#8) = true := by decide

/-! ## The host's operations (vectors K12, K13, L1 to L4) -/

theorem test_tick_floor : ((State.reset.setDt 1#8).setSt 0#8).tickTimers.dt = 0#8 ∧ State.reset.tickTimers.st = 0#8 := by decide
theorem test_load_bytes : answers (State.reset.load [0x12#8, 0x00#8, 0xAB#8]) (fun t => t.mem == [(0x200, 0x12#8), (0x202, 0xAB#8)]) = true := by decide
theorem test_load_empty : faults (State.reset.load []) .programTooLarge = true := by decide
theorem test_reference_press : referencePress (keys [9, 4] none 0#8).held = some 4 ∧ referencePress (keys [] none 0#8).held = none := by decide

/-! ## Witnesses: a state and operands that meet the hypotheses of each statement that has some -/

/-- A self-jump at 0x200 (60_exceptions R344). -/
def idleState : State := load1 0x1200

theorem witness_inv : idleState.Inv := ⟨by decide, by decide, by decide, by decide⟩

theorem witness_EncodeDecodeRoundTrip : decodeWord 0x8124#16 = some (.addReg 1 2) := by decide

theorem witness_OneRowOrIllegal :
    (decodeWord 0xF065#16 = some (.loadRegs 0) ∧ (opcodeRow (.loadRegs 0)).hits 0xF065#16 = true) ∧
    (decodeWord 0xFFFF#16 = none ∧ ∀ r ∈ opcodeMap, r.hits 0xFFFF#16 = false) := by decide

theorem witness_DecoderConsumesTwoBytes :
    decode [0x00#8, 0xEE#8, 0x12#8] = .ok (.ret, [0x12#8]) := by decide

theorem witness_RandomByteIsMasked : ({ load1 0xC30F with inputs := [keys [] none 0xAB#8] } : State).inputs =
    keys [] none 0xAB#8 :: [] := rfl

/-- A call on an empty stack, and one that takes the last slot. -/
theorem witness_CallPushesReturnAddress :
    (State.reset.params.wf = true ∧ 0 < State.reset.sp.toNat ∧ State.reset.sp.toNat ≤ State.reset.params.stackSlots) ∧
    ((State.reset.setSp 1#8).params.wf = true ∧ 0 < (State.reset.setSp 1#8).sp.toNat ∧
      (State.reset.setSp 1#8).sp.toNat ≤ (State.reset.setSp 1#8).params.stackSlots) := by decide

/-- A return from a stack of one entry, and from a full one. -/
theorem witness_ReturnPopsReturnAddress :
    (State.reset.setSp 15#8).sp.toNat < (State.reset.setSp 15#8).params.stackSlots ∧
    (State.reset.setSp 0#8).sp.toNat < (State.reset.setSp 0#8).params.stackSlots := by decide

theorem witness_StackOverflowExactlyWhenFull : faults (exec (.call 0x210#12) (State.reset.setSp 0#8)) .stackOverflow = true := by decide

theorem witness_StackUnderflowExactlyWhenEmpty : faults (exec .ret State.reset) .stackUnderflow = true := by decide

/-- The state between call and return can be the call's own. -/
theorem witness_CallThenReturnRestores : State.reset.params.wf = true ∧ 0 < State.reset.sp.toNat ∧
    State.reset.sp.toNat ≤ State.reset.params.stackSlots ∧
    answers (exec (.call 0x210#12) State.reset) (fun t => answers (exec .ret t) fun w => w.pc == State.reset.pc && w.sp == State.reset.sp) = true := by decide

theorem witness_GlyphAddressLoads : State.reset.params.wf = true ∧
    ({ Params.default with fontBase := 0xFB0 } : Params).wf = true := by decide

/-- The last bases that fit: `fx33` at 0xFFD, block transfers that end at 0x1000. -/
theorem witness_block_bases : (State.reset.setI 0x1FFD#16).i.toNat % 0x1000 + 3 ≤ 0x1000 ∧
    (State.reset.setI 0xFF0#16).i.toNat % 0x1000 + ((15 : Reg).val + 1) ≤ 0x1000 ∧
    (State.reset.setI 0xFFF#16).i.toNat % 0x1000 + ((0 : Reg).val + 1) ≤ 0x1000 := by decide

theorem witness_BcdStoresDigits : (State.reset.setI 0xFFD#16).i.toNat % 0x1000 + 3 ≤ 0x1000 ∧
    answers (exec (.ldBVx 0) (State.reset.setI 0xFFD#16)) (fun _ => true) = true := by decide

theorem witness_BlockStoreWritesRegisters : (State.reset.setI 0xFF0#16).i.toNat % 0x1000 + ((15 : Reg).val + 1) ≤ 0x1000 ∧
    answers (exec (.storeRegs 15) (State.reset.setI 0xFF0#16)) (fun t => t.i == 0x1000#16) = true := by decide

theorem witness_BlockLoadReadsRegisters : (State.reset.setI 0xFF0#16).i.toNat % 0x1000 + ((15 : Reg).val + 1) ≤ 0x1000 ∧
    answers (exec (.loadRegs 15) (State.reset.setI 0xFF0#16)) (fun t => t.i == 0x1000#16) = true := by decide

/-- The state between store and load: the store's own with I set back. -/
theorem witness_BlockTransferRoundTrip :
    answers (exec (.storeRegs 1) ((State.reset.setI 0x300#16).setV 1 9#8)) (fun t =>
      (t.setI 0x300#16).mem == t.mem && (t.setI 0x300#16).i.toNat % 0x1000 == 0x300 &&
      answers (exec (.loadRegs 1) ((t.setI 0x300#16).setV 1 0#8)) (fun w => w.getV 1 == 9#8)) = true := by decide

/-- One byte past memory's end, for each I-based instruction, and the last base that fits for `dxyn`. -/
theorem witness_RangeFaultsExactlyPastMemory :
    0x1000 < (State.reset.setI 0xFFF#16).i.toNat % 0x1000 + (2 : Fin 16).val ∧
    ¬ 0x1000 < (State.reset.setI 0xFFF#16).i.toNat % 0x1000 + (1 : Fin 16).val ∧
    0x1000 < (State.reset.setI 0xFFE#16).i.toNat % 0x1000 + 3 ∧
    0x1000 < (State.reset.setI 0xFF1#16).i.toNat % 0x1000 + ((15 : Reg).val + 1) := by decide

theorem witness_ClearZeroesFramebuffer : (load1 0x00E0).fetchable = true ∧
    (load1 0x00E0).mem.readWord (load1 0x00E0).pc.toNat = 0x00E0#16 := by decide

/-- A one-row sprite at the last byte and an empty one, with the collision flag on and off. -/
theorem witness_DrawFlipsCoveredPixels :
    (State.reset.setI 0xFFF#16).i.toNat % 0x1000 + (1 : Fin 16).val ≤ 0x1000 ∧
    (State.reset.setI 0xFFF#16).i.toNat % 0x1000 + (0 : Fin 16).val ≤ 0x1000 ∧
    State.reset.params.drawCollision = true ∧ ({ Params.default with drawCollision := false } : Params).drawCollision = false := by
  decide

/-- The two edges of the screen: pixel (0, 0) is covered and on, pixel (63, 31) is neither. -/
theorem witness_spriteCovers : (put 0xEE0 [0x80#8] (put 0x300 [0x80#8] (State.reset.setI 0x300#16))).spriteCovers 0 1 1 0 0 ∧
    (put 0xEE0 [0x80#8] (put 0x300 [0x80#8] (State.reset.setI 0x300#16))).mem.pixel Params.default 0 0 = true ∧
    (put 0xEE0 [0x80#8] (put 0x300 [0x80#8] (State.reset.setI 0x300#16))).mem.pixel Params.default 63 31 = false :=
  ⟨⟨0, 0, by decide, by decide, by decide, by decide, by decide⟩, by decide, by decide⟩

theorem witness_DrawMatchesByteAlgorithm : (put 0x300 [0xFF#8] (State.reset.setI 0x300#16)).mem.wf ∧
    (put 0x300 [0xFF#8] (State.reset.setI 0x300#16)).i.toNat % 0x1000 + (1 : Fin 16).val ≤ 0x1000 := by decide

theorem witness_DrawTwiceRestores : (put 0x300 [0xFF#8] (State.reset.setI 0x300#16)).mem.wf ∧
    (put 0x300 [0xFF#8] (State.reset.setI 0x300#16)).i.toNat % 0x1000 + (1 : Fin 16).val ≤ 0x1000 ∧
    (0 : Reg) ≠ 15 ∧ (1 : Reg) ≠ 15 ∧ (∀ k, k < (1 : Fin 16).val → Params.default.inFB (0x300 + k) = false) := by decide

theorem witness_KeyWaitStoresPressedKey :
    ({ load1 0xF30A with inputs := [keys [] (some 15) 0#8] } : State).input.press = some 15 := rfl

/-- A state whose next step waits for a key. -/
def waitState : State := { load1 0xF30A with inputs := [keys [] none 0#8] }

theorem witness_KeyWaitRetries : waitState.fetchable = true ∧
    decodeWord (waitState.mem.readWord waitState.pc.toNat) = some (.ldVxK 3) ∧ waitState.input.press = none :=
  ⟨by decide, by decide, rfl⟩

/-- The three ways a step ends: a commit, a key wait, the instruction's fault. -/
theorem witness_StepRunsDecodedInstruction :
    ((load1 0x6A9C).fetchable = true ∧ decodeWord ((load1 0x6A9C).mem.readWord 0x200) = some (.ldImm 10 0x9C#8) ∧
      answers (exec (.ldImm 10 0x9C#8) (load1 0x6A9C).fetched) (fun t => t.result == .continued) = true) ∧
    answers (exec (.ldVxK 3) waitState.fetched) (fun t => t.result == .awaitingKey) = true ∧
    ((load1 0x00EE).fetchable = true ∧ decodeWord ((load1 0x00EE).mem.readWord 0x200) = some .ret ∧
      faults (exec .ret (load1 0x00EE).fetched) .stackUnderflow = true) := by decide

/-- The boundary addresses of the fetch check: 0x200 and 0xFFE pass, 0x1FE, 0x1000 and 0x201 do not. -/
theorem witness_FetchFaultsExactlyOnBadPc : State.reset.fetchable = true ∧ (State.reset.setPc 0xFFE#16).fetchable = true ∧
    (State.reset.setPc 0x1FE#16).fetchable = false ∧ (State.reset.setPc 0x1000#16).fetchable = false ∧
    (State.reset.setPc 0x201#16).fetchable = false := by decide

theorem witness_IllegalOpcodeExactlyOnNoRow : (load1 0xF1FF).fetchable = true ∧
    (load1 0xF1FF).mem.readWord 0x200 = 0xF1FF#16 ∧ ∀ r ∈ opcodeMap, 0xF1FF#16 &&& r.mask ≠ r.pattern := by decide

theorem witness_RegisterFrame : answers (exec (.addReg 1 2) State.reset) (fun _ => true) = true ∧
    (Instr.addReg 1 2).writesV 3 = false := by decide

theorem witness_MemoryFrame : (answers (exec (.ldImm 1 2#8) State.reset) (fun _ => true) = true ∧
      storeRange (.ldImm 1 2#8) State.reset = none) ∧
    answers (exec (.call 0x210#12) State.reset) (fun _ => true) = true ∧
      storeRange (.call 0x210#12) State.reset = some (0xFFE, 2) := by decide

theorem witness_SpecialRegisterFrame : answers (exec (.ldImm 1 2#8) State.reset) (fun _ => true) = true ∧
    (Instr.ldImm 1 2#8).writesI = false ∧ (Instr.ldImm 1 2#8).branches = false := by decide

theorem witness_NonBranchingStepAdvancesPcByTwo : (load1 0x6A9C).fetchable = true ∧
    decodeWord ((load1 0x6A9C).mem.readWord (load1 0x6A9C).pc.toNat) = some (.ldImm 10 0x9C#8) ∧
    (Instr.ldImm 10 0x9C#8).branches = false ∧
    answers (step (load1 0x6A9C)) (fun t => t.result == .continued) = true := by decide

theorem witness_OnlySamplersSeeInputs : ((Instr.addReg 1 2).samplesInput = false ∧
      answers (exec (.addReg 1 2) State.reset) (fun _ => true) = true) ∧
    Instr.ret.samplesInput = false ∧ faults (exec .ret State.reset) .stackUnderflow = true := by decide

theorem witness_NoInstructionReadsSoundTimer : faults (exec .ret State.reset) .stackUnderflow = true ∧
    answers (exec (.ldVxDT 1) State.reset) (fun _ => true) = true ∧
    answers (exec (.ldSTVx 1) State.reset) (fun _ => true) = true := by decide

theorem witness_StepPresentsExactlyWhenDirty : idleState.Inv ∧ idleState.fetchable = true ∧
    decodeWord (idleState.mem.readWord idleState.pc.toNat) = some (.jp 0x200#12) ∧
    answers (step idleState) (fun _ => true) = true :=
  ⟨witness_inv, by decide, by decide, by decide⟩

theorem witness_ConstructionMeetsInvariant :
    Params.default.wf = true ∧ ({ Params.default with stackSlots := 255 } : Params).wf = true ∧
    ({ Params.default with stackSlots := 1 } : Params).wf = true ∧ reservedImageWf (List.replicate 512 0xF0#8) = true :=
  ⟨by decide, by decide, by decide, by rw [reservedImageWf, List.length_replicate]; decide⟩

theorem witness_StepKeepsInvariant : idleState.Inv ∧ answers (step idleState) (fun _ => true) = true :=
  ⟨witness_inv, by decide⟩

theorem witness_HostRunKeepsInvariant : idleState.Inv := witness_inv

/-- The sizes at the two ends: 0 and 3297 bytes fail, 1 and 3296 bytes load. -/
theorem witness_LoadCopiesImage : State.reset.params.wf = true ∧ State.reset.params.userSize = 3296 ∧
    (0 < (List.replicate 1 0#8).length ∧ (List.replicate 1 0#8).length ≤ State.reset.params.userSize) ∧
    (List.replicate 3296 1#8).length ≤ State.reset.params.userSize ∧
    State.reset.params.userSize < (List.replicate 3297 1#8).length :=
  ⟨by decide, by decide, by decide, by rw [List.length_replicate]; decide, by rw [List.length_replicate]; decide⟩

/-- The boundary addresses of the accessors and both answers of `peek`. -/
theorem witness_AccessorsReadState : State.reset.byteOf 0xFFF = some 0#8 ∧ State.reset.byteOf 0x1000 = none ∧
    State.reset.wordOf 0xFFE = some 0#16 ∧ State.reset.wordOf 0xFFF = none ∧ State.reset.peek = none ∧
    (put 0xFFE [0x02#8, 0x06#8] (State.reset.setSp 15#8)).peek = some 0x0206#16 := by decide

theorem witness_IdleLoopRunsForever : idleState.Inv ∧ idles idleState := ⟨witness_inv, by decide, by decide⟩

end Sys2Proof.Tests
end

section
/-! SUPPORT. What the decoder consumes (30_encoding R90): the head of the byte list is one big-endian word. -/

namespace Sys2Proof

/-- On two bytes and a tail the decoder answers the instruction of their word and hands the tail back. -/
theorem decode_cons_cons_eq_ok_iff {hi lo : Byte} {tail rest : List Byte} {i : Instr} :
    decode (hi :: lo :: tail) = .ok (i, rest) ↔ tail = rest ∧ decodeWord (wordOfBytes hi lo) = some i := by
  rw [decode]
  cases decodeWord (wordOfBytes hi lo) with
  | none => simp
  | some j => simp [and_comm]

/-- The decoder answers exactly when two bytes stand before the rest and their word decodes. -/
theorem decode_eq_ok_iff {bytes rest : List Byte} {i : Instr} :
    decode bytes = .ok (i, rest) ↔
      ∃ hi lo : Byte, bytes = hi :: lo :: rest ∧ decodeWord (wordOfBytes hi lo) = some i := by
  match bytes with
  | [] => simp [decode]
  | [_] => simp [decode]
  | hi :: lo :: tail =>
    rw [decode_cons_cons_eq_ok_iff]
    constructor
    · rintro ⟨rfl, hword⟩
      exact ⟨hi, lo, rfl, hword⟩
    · rintro ⟨_, _, ⟨⟩, hword⟩
      exact ⟨rfl, hword⟩

/-- Settles O4: `encode` lists the two bytes of the word by definition, and `decode_eq_ok_iff` says what is consumed;
`wordOfBytes` is the big-endian combination the statement writes out. -/
theorem decoderConsumesTwoBytes : Obligations.DecoderConsumesTwoBytes := by
  unfold Obligations.DecoderConsumesTwoBytes
  exact ⟨fun _ => ⟨rfl, rfl⟩, fun _ _ _ => decode_eq_ok_iff⟩

end Sys2Proof
end

section
/-! SUPPORT. The decoder undoes the encoder, so an instruction whose opcode matches its row encodes as that row
(30_encoding R93 to R96). -/

namespace Sys2Proof

/-- Decoding the opcode of an instruction gives the instruction back: the group picks the constructor, the second-level
key tells apart the members of groups 0x8, 0xE and 0xF, and each operand is read from the field it was packed in. -/
theorem decodeWord_encodeWord (i : Instr) : decodeWord (encodeWord i) = some i := by
  cases i with
  | cls | ret => decide
  | jp | call | ldI | jpV0 | seImm | sneImm | ldImm | addImm | rnd | seReg | sneReg | drw =>
    simp [encodeWord, decodeWord]
  | ldReg | orReg | andReg | xorReg | addReg | subReg | shr | subnReg | shl =>
    simp [encodeWord, decodeWord, decodeGroup8]
  | skp | sknp => simp [encodeWord, decodeWord, decodeGroupE]
  | ldVxDT | ldVxK | ldDTVx | ldSTVx | addIVx | ldFVx | ldBVx | storeRegs | loadRegs =>
    simp [encodeWord, decodeWord, decodeGroupF]

/-- An instruction whose opcode matches its row encodes as that row's pattern and mask. -/
theorem encodesAs_of_hitsRow {i : Instr} (h : Laws.EncodeHitsRow.Statement i) :
    Machine.encodesAs i (opcodeRow i).pattern (opcodeRow i).mask :=
  ⟨OpcodeRow.hits_iff.mp h, decodeWord_encodeWord i⟩

end Sys2Proof
end

section
/-! SUPPORT. Jumps and compare skips (40_control R122, R124 to R128): the target of each jump as the spec writes it, and
a skip as one conditional write of PC. -/

namespace Sys2Proof.Machine

/-! ## The rules of jumps and skips -/

theorem exec_jp (nnn : BitVec 12) (s : State) : exec (.jp nnn) s = .next (s.setPc (addrWord nnn)) := rfl

theorem exec_jpV0 (nnn : BitVec 12) (s : State) : exec (.jpV0 nnn) s = .next (s.setPc (s.indexedTarget nnn)) := rfl

theorem exec_seImm (x : Reg) (kk : Byte) (s : State) :
    exec (.seImm x kk) s = .next (s.skipIf (s.getV x == kk)) := rfl

theorem exec_sneImm (x : Reg) (kk : Byte) (s : State) :
    exec (.sneImm x kk) s = .next (s.skipIf (s.getV x != kk)) := rfl

theorem exec_seReg (x y : Reg) (s : State) :
    exec (.seReg x y) s = .next (s.skipIf (s.getV x == s.getV y)) := rfl

theorem exec_sneReg (x y : Reg) (s : State) :
    exec (.sneReg x y) s = .next (s.skipIf (s.getV x != s.getV y)) := rfl

/-! ## Targets -/

theorem addrWord_eq_ofNat (nnn : BitVec 12) : addrWord nnn = BitVec.ofNat 16 nnn.toNat :=
  (BitVec.ofNat_toNat 16 nnn).symm

/-- Reducing modulo 2^12 is masking with 0xFFF (00_scope R9). -/
theorem trunc12_eq_and (n : Nat) : trunc12 n = BitVec.ofNat 16 n &&& 0x0FFF#16 := by
  apply BitVec.eq_of_toNat_eq
  have hmask : n % 2 ^ 16 &&& 0xFFF = n % 2 ^ 16 % 2 ^ 12 := Nat.and_two_pow_sub_one_eq_mod _ 12
  rw [trunc12, BitVec.toNat_and, BitVec.toNat_ofNat, BitVec.toNat_ofNat, BitVec.toNat_ofNat, hmask]
  omega

theorem State.indexedTarget_eq_and (s : State) (nnn : BitVec 12) :
    s.indexedTarget nnn = BitVec.ofNat 16 (nnn.toNat + s.v[0].toNat) &&& 0x0FFF#16 :=
  trunc12_eq_and _

/-! ## The skip -/

/-- `Skip(c)` for a test `c` of `p` writes PC alone, and adds 2 exactly when `p` holds (40_control R120). -/
theorem State.skipIf_eq_of_iff (s : State) {c : Bool} {p : Prop} [Decidable p] (hc : c = true ↔ p) :
    s.skipIf c = { s with pc := if p then s.pc + 2#16 else s.pc } := by
  by_cases hp : p
  · rw [if_pos hp, hc.mpr hp]; rfl
  · rw [if_neg hp, Bool.eq_false_iff.mpr (mt hc.mp hp)]; rfl

/-! ## The obligations -/

/-- Settles O13: each jump is one write of PC, its target as `addrWord_eq_ofNat` and `State.indexedTarget_eq_and`
rewrite it. -/
theorem jumpsSetPc : Obligations.JumpsSetPc := by
  unfold Obligations.JumpsSetPc
  refine ⟨fun nnn s => ?jump, fun nnn s => ?jumpIndexed, fun nnn => ?jumpCode, fun nnn => ?jumpIndexedCode⟩
  case jump => rw [exec_jp, addrWord_eq_ofNat]; rfl
  case jumpIndexed => rw [exec_jpV0, State.indexedTarget_eq_and]; rfl
  case jumpCode => exact encodesAs_of_hitsRow (Laws.EncodeHitsRow.jp nnn)
  case jumpIndexedCode => exact encodesAs_of_hitsRow (Laws.EncodeHitsRow.jpV0 nnn)

/-- Settles O14: every compare skip is `State.skipIf` of a Boolean test, which `State.skipIf_eq_of_iff` turns into the
condition the test decides. -/
theorem skipsAddTwoWhenConditionHolds : Obligations.SkipsAddTwoWhenConditionHolds := by
  unfold Obligations.SkipsAddTwoWhenConditionHolds
  refine ⟨fun x kk s => ?eqImm, fun x kk s => ?neImm, fun x y s => ?eqReg, fun x y s => ?neReg, ?codes⟩
  case eqImm => rw [exec_seImm, State.skipIf_eq_of_iff s beq_iff_eq]; rfl
  case neImm => rw [exec_sneImm, State.skipIf_eq_of_iff s bne_iff_ne]; rfl
  case eqReg => rw [exec_seReg, State.skipIf_eq_of_iff s beq_iff_eq]; rfl
  case neReg => rw [exec_sneReg, State.skipIf_eq_of_iff s bne_iff_ne]; rfl
  case codes =>
    exact ⟨fun x kk => encodesAs_of_hitsRow (Laws.EncodeHitsRow.seImm x kk),
      fun x kk => encodesAs_of_hitsRow (Laws.EncodeHitsRow.sneImm x kk),
      fun x y => encodesAs_of_hitsRow (Laws.EncodeHitsRow.seReg x y),
      fun x y => encodesAs_of_hitsRow (Laws.EncodeHitsRow.sneReg x y)⟩

end Sys2Proof.Machine
end

section
/-! SUPPORT. Register loads and arithmetic (41_register_alu R161 to R163, R167 to R171): each instruction is one write of
V[x], or of V[x] and then VF, whose values the laws of Laws/Alu.lean give. -/

namespace Sys2Proof.Machine

/-! ## The rules of the instructions -/

theorem exec_ldImm (x : Reg) (kk : Byte) (s : State) : exec (.ldImm x kk) s = .next (s.setV x kk) := rfl

theorem exec_ldReg (x y : Reg) (s : State) : exec (.ldReg x y) s = .next (s.setV x (s.getV y)) := rfl

theorem exec_addImm (x : Reg) (kk : Byte) (s : State) :
    exec (.addImm x kk) s = .next (s.setV x (sum8 (s.getV x) kk)) := rfl

theorem exec_addReg (x y : Reg) (s : State) :
    exec (.addReg x y) s =
      .next (s.setVThenFlag x (sum8 (s.getV x) (s.getV y)) (carryFlag (s.getV x) (s.getV y))) := rfl

theorem exec_subReg (x y : Reg) (s : State) :
    exec (.subReg x y) s =
      .next (s.setVThenFlag x (diff8 (s.getV x) (s.getV y)) (notBorrowFlag (s.getV x) (s.getV y))) := rfl

theorem exec_subnReg (x y : Reg) (s : State) :
    exec (.subnReg x y) s =
      .next (s.setVThenFlag x (diff8 (s.getV y) (s.getV x)) (notBorrowFlag (s.getV y) (s.getV x))) := rfl

theorem exec_shr (x y : Reg) (s : State) :
    exec (.shr x y) s = .next (s.setVThenFlag x (shiftRight8 (s.getV x)) (shiftOutLow (s.getV x))) := rfl

theorem exec_shl (x y : Reg) (s : State) :
    exec (.shl x y) s = .next (s.setVThenFlag x (shiftLeft8 (s.getV x)) (shiftOutHigh (s.getV x))) := rfl

/-! ## The writes as record updates, and the wrapped sum -/

theorem State.setV_eq (s : State) (x : Reg) (b : Byte) : s.setV x b = { s with v := s.v.set x.val b } := rfl

/-- The flag is the last write, so it is what VF holds also when x is 15 (41_register_alu R160). -/
theorem State.setVThenFlag_eq (s : State) (x : Reg) (result flag : Byte) :
    s.setVThenFlag x result flag = { s with v := (s.v.set x.val result).set 15 flag } := rfl

/-- Truncating to 8 bits is reducing modulo 256 (00_scope R9). -/
theorem sum8_eq_ofNat_mod (a b : Byte) : sum8 a b = BitVec.ofNat 8 ((a.toNat + b.toNat) % 256) := by
  apply BitVec.eq_of_toNat_eq
  simp only [sum8, trunc8, BitVec.toNat_ofNat, Nat.reducePow, Nat.mod_mod]

/-! ## The obligations -/

/-- Settles O6: both loads are one `State.setV`. -/
theorem registerLoads : Obligations.RegisterLoads := by
  unfold Obligations.RegisterLoads
  refine ⟨fun x kk s => ?immediate, fun x y s => ?register, fun x kk => ?immediateCode, fun x y => ?registerCode⟩
  case immediate => rw [exec_ldImm, State.setV_eq]
  case register => rw [exec_ldReg, State.setV_eq, State.getV_eq]
  case immediateCode => exact encodesAs_of_hitsRow (Laws.EncodeHitsRow.ldImm x kk)
  case registerCode => exact encodesAs_of_hitsRow (Laws.EncodeHitsRow.ldReg x y)

/-- Settles O7: `7xkk` is one `State.setV` of the sum, which `sum8_eq_ofNat_mod` writes modulo 256. -/
theorem addImmediateWraps : Obligations.AddImmediateWraps := by
  unfold Obligations.AddImmediateWraps
  refine ⟨fun x kk s => ?effect, fun x kk => ?code⟩
  case effect => rw [exec_addImm, State.setV_eq, State.getV_eq, sum8_eq_ofNat_mod]
  case code => exact encodesAs_of_hitsRow (Laws.EncodeHitsRow.addImm x kk)

/-- Settles O9: the result is the sum of the bit vectors, the flag the test for an exact sum above 255. -/
theorem addWritesSumThenCarry : Obligations.AddWritesSumThenCarry := by
  unfold Obligations.AddWritesSumThenCarry
  refine ⟨fun x y s => ?effect, fun x y => ?code⟩
  case effect => rw [exec_addReg, State.setVThenFlag_eq, sum8_eq_add, carryFlag_eq, State.getV_eq, State.getV_eq]
  case code => exact encodesAs_of_hitsRow (Laws.EncodeHitsRow.addReg x y)

/-- Settles O10: `8xy5` and `8xy7` take the same difference and flag with minuend and subtrahend exchanged. -/
theorem subtractWritesDifferenceThenNotBorrow : Obligations.SubtractWritesDifferenceThenNotBorrow := by
  unfold Obligations.SubtractWritesDifferenceThenNotBorrow
  refine ⟨fun x y s => ?sub, fun x y s => ?subn, fun x y => ?subCode, fun x y => ?subnCode⟩
  case sub => rw [exec_subReg, State.setVThenFlag_eq, diff8_eq_sub, notBorrowFlag_eq, State.getV_eq, State.getV_eq]
  case subn => rw [exec_subnReg, State.setVThenFlag_eq, diff8_eq_sub, notBorrowFlag_eq, State.getV_eq, State.getV_eq]
  case subCode => exact encodesAs_of_hitsRow (Laws.EncodeHitsRow.subReg x y)
  case subnCode => exact encodesAs_of_hitsRow (Laws.EncodeHitsRow.subnReg x y)

/-- Settles O11: the rules of both shifts do not name y; the flag is the bit of the old V[x] that leaves the byte. -/
theorem shiftWritesResultThenBitOut : Obligations.ShiftWritesResultThenBitOut := by
  unfold Obligations.ShiftWritesResultThenBitOut
  refine ⟨fun x y s => ?right, fun x y s => ?left, fun x y => ?rightCode, fun x y => ?leftCode⟩
  case right => rw [exec_shr, State.setVThenFlag_eq, shiftRight8_eq, shiftOutLow_eq, State.getV_eq]
  case left => rw [exec_shl, State.setVThenFlag_eq, shiftLeft8_eq, shiftOutHigh_eq, State.getV_eq]
  case rightCode => exact encodesAs_of_hitsRow (Laws.EncodeHitsRow.shr x y)
  case leftCode => exact encodesAs_of_hitsRow (Laws.EncodeHitsRow.shl x y)

end Sys2Proof.Machine
end

section
/-! SUPPORT. Setting I (43_index_memory R231, R232): each instruction is one write of I, the sum of `fx1e` wrapped at
12 bits also when the stored I is above 0xFFF. -/

namespace Sys2Proof.Machine

/-! ## The rules of the instructions -/

theorem exec_ldI (nnn : BitVec 12) (s : State) : exec (.ldI nnn) s = .next (s.setI (addrWord nnn)) := rfl

theorem exec_addIVx (x : Reg) (s : State) :
    exec (.addIVx x) s = .next (s.setI (s.indexPlus (s.getV x))) := rfl

/-! ## The write as a record update, and the wrapped sum -/

theorem State.setI_eq (s : State) (w : Word) : s.setI w = { s with i := w } := rfl

/-- Truncating the exact sum to 12 bits is masking the 16-bit sum: a carry out of bit 15 is lost either way. -/
theorem State.indexPlus_eq_and (s : State) (b : Byte) :
    s.indexPlus b = (s.i + BitVec.ofNat 16 b.toNat) &&& 0x0FFF#16 := by
  rw [State.indexPlus, trunc12_eq_and, BitVec.ofNat_add, BitVec.ofNat_toNat 16 s.i, BitVec.setWidth_eq]

/-! ## The obligation -/

/-- Settles O20: both instructions are one `State.setI`, so every other field, VF included, stays. -/
theorem indexLoadsAndAdds : Obligations.IndexLoadsAndAdds := by
  unfold Obligations.IndexLoadsAndAdds
  refine ⟨fun nnn s => ?load, fun x s => ?add, fun nnn => ?loadCode, fun x => ?addCode⟩
  case load => rw [exec_ldI, State.setI_eq, addrWord_eq_ofNat]
  case add => rw [exec_addIVx, State.setI_eq, State.indexPlus_eq_and, State.getV_eq]
  case loadCode => exact encodesAs_of_hitsRow (Laws.EncodeHitsRow.ldI nnn)
  case addCode => exact encodesAs_of_hitsRow (Laws.EncodeHitsRow.addIVx x)

end Sys2Proof.Machine
end

section
/-! SUPPORT. The timers (44_timers_keypad R263 to R265): `fx07` is one write of V[x], `fx15` one of DT, `fx18` one
of ST. -/

namespace Sys2Proof.Machine

/-! ## The rules of the instructions -/

theorem exec_ldVxDT (x : Reg) (s : State) : exec (.ldVxDT x) s = .next (s.setV x s.dt) := rfl

theorem exec_ldDTVx (x : Reg) (s : State) : exec (.ldDTVx x) s = .next (s.setDt (s.getV x)) := rfl

theorem exec_ldSTVx (x : Reg) (s : State) : exec (.ldSTVx x) s = .next (s.setSt (s.getV x)) := rfl

/-! ## The writes as record updates -/

theorem State.setDt_eq (s : State) (b : Byte) : s.setDt b = { s with dt := b } := rfl

theorem State.setSt_eq (s : State) (b : Byte) : s.setSt b = { s with st := b } := rfl

/-! ## The obligation -/

/-- Settles O33: each instruction is one write of one field, so a read of DT leaves it and a write of one timer leaves
the other. -/
theorem timerReadsAndWrites : Obligations.TimerReadsAndWrites := by
  unfold Obligations.TimerReadsAndWrites
  refine ⟨fun x s => ?readDelay, fun x s => ?writeDelay, fun x s => ?writeSound,
    fun x => ?readDelayCode, fun x => ?writeDelayCode, fun x => ?writeSoundCode⟩
  case readDelay => rw [exec_ldVxDT, State.setV_eq]
  case writeDelay => rw [exec_ldDTVx, State.setDt_eq, State.getV_eq]
  case writeSound => rw [exec_ldSTVx, State.setSt_eq, State.getV_eq]
  case readDelayCode => exact encodesAs_of_hitsRow (Laws.EncodeHitsRow.ldVxDT x)
  case writeDelayCode => exact encodesAs_of_hitsRow (Laws.EncodeHitsRow.ldDTVx x)
  case writeSoundCode => exact encodesAs_of_hitsRow (Laws.EncodeHitsRow.ldSTVx x)

end Sys2Proof.Machine
end

section
/-! SUPPORT. The faults of an instruction's rule (60_exceptions R304, R305, R309): each is the answer of the one check
the rule makes before its effect, and the checks of different kinds raise different faults. -/

namespace Sys2Proof.Machine

/-! ## The check of each instruction -/

/-- The check an instruction makes before its effect (60_exceptions R308, R309); `exec_eq_fault_iff` ties it to
`exec`. -/
def State.ownCheck (s : State) (i : Instr) : Option Fault :=
  match i with
  | .ret => s.popFault
  | .call _ => s.pushFault
  | .drw _ _ n => s.rangeFault .draw n.val
  | .ldBVx _ => s.rangeFault .bcd 3
  | .storeRegs x => s.rangeFault .storeRegs (x.val + 1)
  | .loadRegs x => s.rangeFault .loadRegs (x.val + 1)
  | _ => none

/-- An instruction faults exactly as its check says: the checked ones are `guarded` by it, every other rule answers a
next state. -/
theorem exec_eq_fault_iff {i : Instr} {s : State} {f : Fault} : exec i s = .fault f ↔ s.ownCheck i = some f := by
  cases i with
  | ret | call | drw | ldBVx | storeRegs | loadRegs => exact guarded_eq_fault_iff
  | _ => exact iff_of_false nofun nofun

/-- A check that fails is the pop's, the push's or a range check. -/
theorem State.ownCheck_cases {s : State} {i : Instr} {f : Fault} (h : s.ownCheck i = some f) :
    (i = .ret ∧ s.popFault = some f) ∨ (∃ nnn, i = .call nnn ∧ s.pushFault = some f) ∨
      ∃ op len, s.rangeFault op len = some f := by
  cases i with
  | ret => exact .inl ⟨rfl, h⟩
  | call nnn => exact .inr (.inl ⟨nnn, rfl, h⟩)
  | drw | ldBVx | storeRegs | loadRegs => exact .inr (.inr ⟨_, _, h⟩)
  | _ => cases h

/-! ## Which check raises the stack faults -/

theorem State.pushFault_eq_stackOverflow_iff {s : State} : s.pushFault = some .stackOverflow ↔ s.sp.toNat = 0 := by
  simp [State.pushFault_eq_some_iff, BitVec.toNat_eq]

theorem State.popFault_eq_stackUnderflow_iff {s : State} :
    s.popFault = some .stackUnderflow ↔ s.sp.toNat = s.params.stackSlots := by
  simp [State.popFault_eq_some_iff]

theorem State.popFault_ne_stackOverflow {s : State} : s.popFault ≠ some .stackOverflow := by
  simp [State.popFault_eq_some_iff]

theorem State.pushFault_ne_stackUnderflow {s : State} : s.pushFault ≠ some .stackUnderflow := by
  simp [State.pushFault_eq_some_iff]

/-! ## The obligations -/

/-- Settles O17: `2nnn` makes the push's check, and neither the pop's nor a range check answers StackOverflow. -/
theorem stackOverflowExactlyWhenFull : Obligations.StackOverflowExactlyWhenFull := by
  unfold Obligations.StackOverflowExactlyWhenFull
  refine ⟨fun nnn s => exec_eq_fault_iff.trans State.pushFault_eq_stackOverflow_iff, fun i s h => ?onlyCall⟩
  case onlyCall =>
    obtain ⟨-, hpop⟩ | ⟨nnn, hcall, -⟩ | ⟨op, len, hrange⟩ := State.ownCheck_cases (exec_eq_fault_iff.mp h)
    · exact absurd hpop State.popFault_ne_stackOverflow
    · exact ⟨nnn, hcall⟩
    · cases (State.rangeFault_eq_some_iff.mp hrange).2

/-- Settles O18: `00EE` makes the pop's check, and neither the push's nor a range check answers StackUnderflow. -/
theorem stackUnderflowExactlyWhenEmpty : Obligations.StackUnderflowExactlyWhenEmpty := by
  unfold Obligations.StackUnderflowExactlyWhenEmpty
  refine ⟨fun s => exec_eq_fault_iff.trans State.popFault_eq_stackUnderflow_iff, fun i s h => ?onlyRet⟩
  case onlyRet =>
    obtain ⟨hret, -⟩ | ⟨nnn, -, hpush⟩ | ⟨op, len, hrange⟩ := State.ownCheck_cases (exec_eq_fault_iff.mp h)
    · exact hret
    · exact absurd hpush State.pushFault_ne_stackUnderflow
    · cases (State.rangeFault_eq_some_iff.mp hrange).2

end Sys2Proof.Machine
end

section
/-! SUPPORT. The encoder undoes the decoder, and the opcode map has exactly one row for an opcode that decodes and none
for one that does not (30_encoding R93 to R100). -/

namespace Sys2Proof

/-! ## An opcode is packed from its fields -/

theorem packNNN_of_group {op : Word} {g : BitVec 4} (hg : fieldG op = g) : packNNN g (fieldNNN op) = op :=
  hg ▸ packNNN_fields op

theorem packXKK_of_group {op : Word} {g : BitVec 4} (hg : fieldG op = g) :
    packXKK g (fieldX op) (fieldKK op) = op :=
  hg ▸ packXKK_fields op

theorem packXYN_of_group {op : Word} {g : BitVec 4} (hg : fieldG op = g) :
    packXYN g (fieldX op) (fieldY op) (fieldN op) = op :=
  hg ▸ packXYN_fields op

/-! ## The groups with a second-level key (30_encoding R93) -/

theorem encodeWord_of_decodeGroup0 {op : Word} {i : Instr} (h : decodeGroup0 op = some i) : encodeWord i = op := by
  unfold decodeGroup0 at h
  split at h
  · next hop => cases h; exact hop.symm
  · split at h
    · next hop => cases h; exact hop.symm
    · cases h

theorem encodeWord_of_decodeGroup8 {x y : Reg} {n : Fin 16} {i : Instr} (h : decodeGroup8 x y n = some i) :
    encodeWord i = packXYN 0x8#4 x y n := by
  unfold decodeGroup8 at h
  split at h <;> cases h <;> rfl

theorem encodeWord_of_decodeGroupE {x : Reg} {kk : Byte} {i : Instr} (h : decodeGroupE x kk = some i) :
    encodeWord i = packXKK 0xE#4 x kk := by
  unfold decodeGroupE at h
  repeat' split at h
  all_goals cases h
  all_goals subst kk; rfl

theorem encodeWord_of_decodeGroupF {x : Reg} {kk : Byte} {i : Instr} (h : decodeGroupF x kk = some i) :
    encodeWord i = packXKK 0xF#4 x kk := by
  unfold decodeGroupF at h
  repeat' split at h
  all_goals cases h
  all_goals subst kk; rfl

/-- Encoding what an opcode decodes to gives the opcode back: every arm keeps all the fields of its group's format. -/
theorem encodeWord_of_decodeWord {op : Word} {i : Instr} (h : decodeWord op = some i) : encodeWord i = op := by
  unfold decodeWord at h
  split at h
  case h_1 => exact encodeWord_of_decodeGroup0 h
  case h_6 hg | h_10 hg =>
    split at h
    · next hn =>
      cases h
      have hop := packXYN_of_group hg
      rwa [hn] at hop
    · cases h
  case h_9 hg => exact (encodeWord_of_decodeGroup8 h).trans (packXYN_of_group hg)
  case h_14 hg => cases h; exact packXYN_of_group hg
  case h_15 hg => exact (encodeWord_of_decodeGroupE h).trans (packXKK_of_group hg)
  case h_16 =>
    have hg : fieldG op = 0xF#4 := by simp only [imp_false] at *; bv_omega
    exact (encodeWord_of_decodeGroupF h).trans (packXKK_of_group hg)
  case h_2 hg | h_3 hg | h_11 hg | h_12 hg => cases h; exact packNNN_of_group hg
  case h_4 hg | h_5 hg | h_7 hg | h_8 hg | h_13 hg => cases h; exact packXKK_of_group hg

/-! ## The rows of the opcode map (30_encoding R96, R100) -/

/-- The rows of the map are disjoint: on the bits both of two rows test, their patterns differ. -/
theorem opcodeMap_disjoint : ∀ r ∈ opcodeMap, ∀ q ∈ opcodeMap,
    r.pattern &&& q.mask = q.pattern &&& r.mask → r = q := by
  decide

/-- At most one row of the map matches an opcode. -/
theorem eq_of_hits {r q : OpcodeRow} {op : Word} (hr : r ∈ opcodeMap) (hq : q ∈ opcodeMap)
    (hrop : r.hits op = true) (hqop : q.hits op = true) : r = q := by
  rw [OpcodeRow.hits_iff] at hrop hqop
  apply opcodeMap_disjoint r hr q hq
  rw [← hrop, ← hqop, BitVec.and_assoc, BitVec.and_assoc, BitVec.and_comm r.mask]

theorem opcodeRow_mem_opcodeMap (i : Instr) : opcodeRow i ∈ opcodeMap := by
  cases i <;> simp [opcodeRow, opcodeMap]

/-- The opcode of every instruction matches the instruction's row. -/
theorem opcodeRow_hits_encodeWord (i : Instr) : (opcodeRow i).hits (encodeWord i) = true := by
  cases i with
  | cls => exact Laws.EncodeHitsRow.cls
  | ret => exact Laws.EncodeHitsRow.ret
  | jp nnn => exact Laws.EncodeHitsRow.jp nnn
  | call nnn => exact Laws.EncodeHitsRow.call nnn
  | seImm x kk => exact Laws.EncodeHitsRow.seImm x kk
  | sneImm x kk => exact Laws.EncodeHitsRow.sneImm x kk
  | seReg x y => exact Laws.EncodeHitsRow.seReg x y
  | ldImm x kk => exact Laws.EncodeHitsRow.ldImm x kk
  | addImm x kk => exact Laws.EncodeHitsRow.addImm x kk
  | ldReg x y => exact Laws.EncodeHitsRow.ldReg x y
  | orReg x y => exact Laws.EncodeHitsRow.orReg x y
  | andReg x y => exact Laws.EncodeHitsRow.andReg x y
  | xorReg x y => exact Laws.EncodeHitsRow.xorReg x y
  | addReg x y => exact Laws.EncodeHitsRow.addReg x y
  | subReg x y => exact Laws.EncodeHitsRow.subReg x y
  | shr x y => exact Laws.EncodeHitsRow.shr x y
  | subnReg x y => exact Laws.EncodeHitsRow.subnReg x y
  | shl x y => exact Laws.EncodeHitsRow.shl x y
  | sneReg x y => exact Laws.EncodeHitsRow.sneReg x y
  | ldI nnn => exact Laws.EncodeHitsRow.ldI nnn
  | jpV0 nnn => exact Laws.EncodeHitsRow.jpV0 nnn
  | rnd x kk => exact Laws.EncodeHitsRow.rnd x kk
  | drw x y n => exact Laws.EncodeHitsRow.drw x y n
  | skp x => exact Laws.EncodeHitsRow.skp x
  | sknp x => exact Laws.EncodeHitsRow.sknp x
  | ldVxDT x => exact Laws.EncodeHitsRow.ldVxDT x
  | ldVxK x => exact Laws.EncodeHitsRow.ldVxK x
  | ldDTVx x => exact Laws.EncodeHitsRow.ldDTVx x
  | ldSTVx x => exact Laws.EncodeHitsRow.ldSTVx x
  | addIVx x => exact Laws.EncodeHitsRow.addIVx x
  | ldFVx x => exact Laws.EncodeHitsRow.ldFVx x
  | ldBVx x => exact Laws.EncodeHitsRow.ldBVx x
  | storeRegs x => exact Laws.EncodeHitsRow.storeRegs x
  | loadRegs x => exact Laws.EncodeHitsRow.loadRegs x

/-! ## An opcode that a row matches decodes -/

theorem isSome_decodeGroup8 (x y : Reg) (n : Fin 16) : (decodeGroup8 x y n).isSome = (decodeGroup8 0 0 n).isSome := by
  unfold decodeGroup8
  split <;> rfl

theorem isSome_decodeGroupE (x : Reg) (kk : Byte) : (decodeGroupE x kk).isSome = (decodeGroupE 0 kk).isSome := by
  unfold decodeGroupE
  repeat' split
  all_goals rfl

theorem isSome_decodeGroupF (x : Reg) (kk : Byte) : (decodeGroupF x kk).isSome = (decodeGroupF 0 kk).isSome := by
  unfold decodeGroupF
  repeat' split
  all_goals rfl

/-- Whether an opcode outside group 0 decodes depends on its group and, in the groups that have one, on the
second-level key alone (30_encoding R93). -/
theorem isSome_decodeWord_congr {op pat : Word} (hg : fieldG op = fieldG pat) (hzero : fieldG pat ≠ 0x0#4)
    (hn : fieldG pat ∈ [0x5#4, 0x8#4, 0x9#4] → fieldN op = fieldN pat)
    (hkk : fieldG pat ∈ [0xE#4, 0xF#4] → fieldKK op = fieldKK pat) :
    (decodeWord op).isSome = (decodeWord pat).isSome := by
  unfold decodeWord
  rw [hg]
  split
  case h_1 h => exact absurd h hzero
  case h_6 h | h_10 h => rw [hn (by simp [h])]; split <;> rfl
  case h_9 h => rw [hn (by simp [h]), isSome_decodeGroup8, isSome_decodeGroup8 (fieldX pat)]
  case h_15 h => rw [hkk (by simp [h]), isSome_decodeGroupE, isSome_decodeGroupE (fieldX pat)]
  case h_16 =>
    have h : fieldG pat = 0xF#4 := by simp only [imp_false] at *; bv_omega
    rw [hkk (by simp [h]), isSome_decodeGroupF, isSome_decodeGroupF (fieldX pat)]
  all_goals rfl

/-- Each mask of the map tests the group and the key that the decoder tests in that group, and no pattern has a bit
outside its mask. -/
theorem opcodeMap_masks : ∀ r ∈ opcodeMap, r.mask = 0xFFFF#16 ∨
    (r.mask = 0xF000#16 ∧ hexDigit 2 r.pattern = 0 ∧ hexDigit 1 r.pattern = 0 ∧ hexDigit 0 r.pattern = 0 ∧
      fieldG r.pattern ∉ [0x0#4, 0x5#4, 0x8#4, 0x9#4, 0xE#4, 0xF#4]) ∨
    (r.mask = 0xF00F#16 ∧ hexDigit 2 r.pattern = 0 ∧ hexDigit 1 r.pattern = 0 ∧
      fieldG r.pattern ∈ [0x5#4, 0x8#4, 0x9#4]) ∨
    (r.mask = 0xF0FF#16 ∧ hexDigit 2 r.pattern = 0 ∧ fieldG r.pattern ∈ [0xE#4, 0xF#4]) := by decide

theorem opcodeMap_patterns_decode : ∀ r ∈ opcodeMap, (decodeWord r.pattern).isSome = true := by decide

/-- An opcode that a row matches decodes as the row's own pattern does. -/
theorem isSome_decodeWord_of_hits {r : OpcodeRow} {op : Word} (hr : r ∈ opcodeMap) (hop : r.hits op = true) :
    (decodeWord op).isSome = true := by
  have hpat := opcodeMap_patterns_decode r hr
  rw [OpcodeRow.hits_iff] at hop
  rw [← hpat]
  obtain hm | ⟨hm, h2, h1, h0, hgroup⟩ | ⟨hm, h2, h1, hgroup⟩ | ⟨hm, h2, hgroup⟩ := opcodeMap_masks r hr
  · rw [hm, show (0xFFFF#16 : Word) = BitVec.allOnes 16 from rfl, BitVec.and_allOnes] at hop
    rw [hop]
  · rw [hm, mask_F000 _ _ h2 h1 h0, ← fieldG_eq_digit] at hop
    simp only [List.mem_cons, List.not_mem_nil, or_false, not_or] at hgroup
    exact isSome_decodeWord_congr hop (by simp [hgroup]) (by simp [hgroup]) (by simp [hgroup])
  · rw [hm, mask_F00F _ _ h2 h1, ← fieldG_eq_digit] at hop
    obtain ⟨hg, hn⟩ := hop
    have hkey : fieldG r.pattern ≠ 0x0#4 ∧ fieldG r.pattern ∉ [0xE#4, 0xF#4] := by
      generalize fieldG r.pattern = g at hgroup; revert g; decide
    exact isSome_decodeWord_congr hg hkey.1 (fun _ => hn) fun h => absurd h hkey.2
  · rw [hm, mask_F0FF _ _ h2, ← fieldG_eq_digit] at hop
    obtain ⟨hg, hkk⟩ := hop
    have hkey : fieldG r.pattern ≠ 0x0#4 ∧ fieldG r.pattern ∉ [0x5#4, 0x8#4, 0x9#4] := by
      generalize fieldG r.pattern = g at hgroup; revert g; decide
    exact isSome_decodeWord_congr hg hkey.1 (fun h => absurd h hkey.2) fun _ => hkk

/-! ## The obligations -/

/-- Settles O1: the two bytes are the opcode's, and decoding the opcode gives the instruction back. -/
theorem decodeEncodeRoundTrip : Obligations.DecodeEncodeRoundTrip := by
  unfold Obligations.DecodeEncodeRoundTrip
  intro i rest
  have hword : decodeWord (wordOfBytes (highByte (encodeWord i)) (lowByte (encodeWord i))) = some i := by
    rw [wordOfBytes_high_low, decodeWord_encodeWord]
  exact decode_cons_cons_eq_ok_iff.mpr ⟨rfl, hword⟩

/-- Settles O2: every arm of the decoder keeps all the fields of its group's format. -/
theorem encodeDecodeRoundTrip : Obligations.EncodeDecodeRoundTrip := by
  unfold Obligations.EncodeDecodeRoundTrip
  exact fun _ _ h => encodeWord_of_decodeWord h

/-- Settles O3: an opcode that decodes is the opcode of its instruction, whose row matches and is disjoint from the
others; one that does not decode is matched by no row, since a row's opcodes decode. -/
theorem oneRowOrIllegal : Obligations.OneRowOrIllegal := by
  unfold Obligations.OneRowOrIllegal
  intro op
  cases h : decodeWord op with
  | some i =>
    have hhits : (opcodeRow i).hits op = true := encodeWord_of_decodeWord h ▸ opcodeRow_hits_encodeWord i
    exact .inl ⟨i, rfl, opcodeRow_mem_opcodeMap i, hhits,
      fun r hr hrop => eq_of_hits hr (opcodeRow_mem_opcodeMap i) hrop hhits⟩
  | none =>
    refine .inr ⟨rfl, fun r hr => Bool.eq_false_iff.mpr fun hrop => ?_⟩
    have hsome := isSome_decodeWord_of_hits hr hrop
    rw [h] at hsome
    cases hsome

/-- Settles O5: the decoder evaluated on each of the fixed words. -/
theorem sampleWordsDecode : Obligations.SampleWordsDecode := by
  unfold Obligations.SampleWordsDecode
  decide

end Sys2Proof
end

section
/-! SUPPORT. Every rule is one check and one effect (60_exceptions R307, R308): `exec` is `guarded` by the check of
`State.ownCheck`, and what it commits is `State.effect`. -/

namespace Sys2Proof.Machine

/-- Memory with the framebuffer cleared. Irreducible, so that a field that `00E0` leaves alone is seen to stay without
evaluating its 256 stores. -/
@[irreducible] def Memory.cleared (m : Memory) (p : Params) : Memory :=
  m.writeBytes p.fbBase (List.replicate fbBytes 0#8)

theorem Memory.cleared_eq (m : Memory) (p : Params) :
    m.cleared p = m.writeBytes p.fbBase (List.replicate fbBytes 0#8) := by
  unfold Memory.cleared
  rfl

/-- What an instruction writes where its check passes, arm by arm as `exec` has it; `exec_eq_guarded` ties it to
`exec`. -/
def State.effect (s : State) (i : Instr) : State :=
  match i with
  | .cls => (s.setMem (s.mem.cleared s.params)).dirtyIf true
  | .ret => s.popped.setPc s.stackTop
  | .jp nnn => s.setPc (addrWord nnn)
  | .call nnn => (s.pushed s.pc).setPc (addrWord nnn)
  | .seImm x kk => s.skipIf (s.getV x == kk)
  | .sneImm x kk => s.skipIf (s.getV x != kk)
  | .seReg x y => s.skipIf (s.getV x == s.getV y)
  | .ldImm x kk => s.setV x kk
  | .addImm x kk => s.setV x (sum8 (s.getV x) kk)
  | .ldReg x y => s.setV x (s.getV y)
  | .orReg x y => s.setV x (s.getV x ||| s.getV y)
  | .andReg x y => s.setV x (s.getV x &&& s.getV y)
  | .xorReg x y => s.setV x (s.getV x ^^^ s.getV y)
  | .addReg x y => s.setVThenFlag x (sum8 (s.getV x) (s.getV y)) (carryFlag (s.getV x) (s.getV y))
  | .subReg x y => s.setVThenFlag x (diff8 (s.getV x) (s.getV y)) (notBorrowFlag (s.getV x) (s.getV y))
  | .shr x _ => s.setVThenFlag x (shiftRight8 (s.getV x)) (shiftOutLow (s.getV x))
  | .subnReg x y => s.setVThenFlag x (diff8 (s.getV y) (s.getV x)) (notBorrowFlag (s.getV y) (s.getV x))
  | .shl x _ => s.setVThenFlag x (shiftLeft8 (s.getV x)) (shiftOutHigh (s.getV x))
  | .sneReg x y => s.skipIf (s.getV x != s.getV y)
  | .ldI nnn => s.setI (addrWord nnn)
  | .jpV0 nnn => s.setPc (s.indexedTarget nnn)
  | .rnd x kk => s.setV x (s.input.rnd &&& kk)
  | .drw x y n => s.drawn x y n
  | .skp x => s.skipIf (s.held (keyOf (s.getV x)))
  | .sknp x => s.skipIf (!s.held (keyOf (s.getV x)))
  | .ldVxDT x => s.setV x s.dt
  | .ldVxK x => match s.input.press with
    | some k => s.setV x (keyByte k)
    | none => s.awaitKey
  | .ldDTVx x => s.setDt (s.getV x)
  | .ldSTVx x => s.setSt (s.getV x)
  | .addIVx x => s.setI (s.indexPlus (s.getV x))
  | .ldFVx x => s.setI (s.glyphAddr (s.getV x))
  | .ldBVx x => s.stored s.ea (bcdDigits (s.getV x))
  | .storeRegs x => (s.stored s.ea (s.regsUpTo x)).advanceI (x.val + 1)
  | .loadRegs x => (s.loadedRegs (s.mem.readBytes s.ea (x.val + 1))).advanceI (x.val + 1)

/-- Every arm of `exec` is its check, then its effect. -/
theorem exec_eq_guarded (i : Instr) (s : State) : exec i s = guarded (s.ownCheck i) (s.effect i) := by
  cases i with
  | cls => simp only [exec, execCls, State.ownCheck, State.effect, guarded_none, Memory.cleared_eq]
  | _ => rfl

theorem exec_eq_next_iff {i : Instr} {s t : State} : exec i s = .next t ↔ s.ownCheck i = none ∧ s.effect i = t := by
  rw [exec_eq_guarded, guarded_eq_next_iff]

/-- Where its check passes, an instruction commits its effect. -/
theorem exec_of_check {i : Instr} {s : State} (h : s.ownCheck i = none) : exec i s = .next (s.effect i) :=
  exec_eq_next_iff.mpr ⟨h, rfl⟩

/-- One byte written over a whole range. -/
theorem Memory.read_writeBytes_replicate (m : Memory) {a k : Nat} (h : a + k ≤ memSize) (b : Byte) (c : Nat) :
    (m.writeBytes a (List.replicate k b)).read c = if a ≤ c ∧ c < a + k then b else m.read c := by
  rw [Memory.read_writeBytes _ m a (by rwa [List.length_replicate]), List.getElem?_replicate]
  by_cases hlow : a ≤ c
  · by_cases hhigh : c < a + k
    · rw [if_pos hlow, if_pos (by omega), if_pos ⟨hlow, hhigh⟩, Option.getD_some]
    · rw [if_pos hlow, if_neg (by omega), if_neg (by omega), Option.getD_none]
  · rw [if_neg hlow, if_neg (by omega)]

/-- The framebuffer reads 0, every other byte as before (42_display R201). -/
theorem Memory.read_cleared (m : Memory) (p : Params) (a : Nat) :
    (m.cleared p).read a = if p.fbBase ≤ a ∧ a < p.fbBase + fbBytes then 0#8 else m.read a := by
  rw [Memory.cleared_eq, Memory.read_writeBytes_replicate m p.fbBase_add_le]

theorem Memory.wf_cleared {m : Memory} (h : m.wf) (p : Params) : (m.cleared p).wf := by
  rw [Memory.cleared_eq]
  generalize List.replicate fbBytes 0#8 = bs
  exact Memory.wf_writeBytes bs h _

/-! ## The stores and the block load, as Laws/State.lean has the single updates -/

variable (s : State)

@[simp] theorem State.stored_dirty (base : Nat) (bs : List Byte) :
    (s.stored base bs).dirty = (s.dirty || s.params.touchesFB base bs.length) := rfl

@[simp] theorem State.loadedRegs_v (bs : List Byte) : (s.loadedRegs bs).v = writeRegs s.v 0 bs := rfl

@[simp] theorem State.advanceI_dirty (len : Nat) : (s.advanceI len).dirty = s.dirty := rfl

end Sys2Proof.Machine
end

section
/-! SUPPORT. The draw as a state update: memory, `dirty` and, with DRAW_COLLISION, VF (42_display R202). -/

namespace Sys2Proof.Machine

variable (s : State) (x y : Reg) (n : Fin 16)

theorem State.drawn_v : (s.drawn x y n).v =
    if s.params.drawCollision = true then s.v.set 15 (boolByte (s.canvas x y n).hit) else s.v := by
  unfold State.drawn
  split <;> rfl

/-- A draw writes V, memory and `dirty`, and no other field. -/
theorem State.drawn_eq : s.drawn x y n =
    { s with v := (s.drawn x y n).v, mem := (s.canvas x y n).mem, dirty := true } := by
  unfold State.drawn
  split <;> simp [State.setV, State.dirtyIf, State.setMem]

@[simp] theorem State.drawn_i : (s.drawn x y n).i = s.i := by rw [State.drawn_eq]
@[simp] theorem State.drawn_pc : (s.drawn x y n).pc = s.pc := by rw [State.drawn_eq]
@[simp] theorem State.drawn_sp : (s.drawn x y n).sp = s.sp := by rw [State.drawn_eq]
@[simp] theorem State.drawn_dt : (s.drawn x y n).dt = s.dt := by rw [State.drawn_eq]
@[simp] theorem State.drawn_st : (s.drawn x y n).st = s.st := by rw [State.drawn_eq]
@[simp] theorem State.drawn_mem : (s.drawn x y n).mem = (s.canvas x y n).mem := by rw [State.drawn_eq]
@[simp] theorem State.drawn_dirty : (s.drawn x y n).dirty = true := by rw [State.drawn_eq]
@[simp] theorem State.drawn_params : (s.drawn x y n).params = s.params := by rw [State.drawn_eq]
@[simp] theorem State.drawn_result : (s.drawn x y n).result = s.result := by rw [State.drawn_eq]

/-- Only VF may change. -/
theorem State.getV_drawn_other {r : Reg} (hr : r ≠ 15) : (s.drawn x y n).getV r = s.getV r := by
  have hval : 15 ≠ r.val := fun e => hr (Fin.ext e.symm)
  rw [State.getV_eq, State.getV_eq, State.drawn_v]
  split
  · exact Vector.getElem_set_ne _ _ hval
  · rfl

/-- A draw writes inside the framebuffer region only. -/
theorem Canvas.read_drawBits_outside (p : Params) (x0 y0 : Nat) (bits : List (Nat × Nat)) (cv : Canvas) {a : Nat}
    (ha : a < p.fbBase ∨ p.fbBase + fbBytes ≤ a):
    (Canvas.drawBits p x0 y0 cv bits).mem.read a = cv.mem.read a := by
  refine Canvas.drawBits_induction p x0 y0 (fun c => c.mem.read a = cv.mem.read a)
    (fun c px py hx hy hc => ?_) bits cv rfl
  have hlow := p.fbAddr_ge px py
  have hhigh := p.fbAddr_lt hx hy
  rw [Canvas.read_toggle_other p c (by omega), hc]

theorem State.read_canvas_outside {a : Nat} (ha : a < s.params.fbBase ∨ s.params.fbBase + fbBytes ≤ a) :
    (s.canvas x y n).mem.read a = s.mem.read a :=
  Canvas.read_drawBits_outside _ _ _ _ _ ha

theorem State.wf_canvas {s : State} (h : s.mem.wf) : (s.canvas x y n).mem.wf :=
  Canvas.wf_drawBits _ _ _ _ h

end Sys2Proof.Machine
end

section
/-! SUPPORT. What instructions leave unchanged (10_state R22 to R33; 20_memory R63): each field of an effect against the
tables of Machine/Footprint.lean. -/

namespace Sys2Proof.Machine

/-! ## V, memory and I -/

/-- An effect leaves every V register alone that the table does not name (10_state R22). -/
theorem State.getV_effect {s : State} {i : Instr} {r : Reg} (h : i.writesV r = false) :
    (s.effect i).getV r = s.getV r := by
  cases i with
  | ldImm x | addImm x | ldReg x | orReg x | andReg x | xorReg x | rnd x | ldVxDT x =>
    have hx : r ≠ x := by simpa [Instr.writesV] using h
    exact State.getV_setV_other s _ hx.symm
  | addReg x | subReg x | shr x | subnReg x | shl x =>
    have hx : r ≠ x ∧ r ≠ vF := by simpa [Instr.writesV, vF] using h
    exact (State.getV_setVThenFlag s x r _ _).trans (by rw [if_neg hx.2.symm, if_neg hx.1.symm])
  | seImm | sneImm | seReg | sneReg | skp | sknp => exact congrArg (Vector.get · r) (State.skipIf_v s _)
  | drw x y n => exact State.getV_drawn_other s x y n (by simpa [Instr.writesV] using h)
  | ldVxK x =>
    have hx : r ≠ x := by simpa [Instr.writesV] using h
    dsimp only [State.effect]
    split
    · exact State.getV_setV_other s _ hx.symm
    · rfl
  | loadRegs x =>
    have hx : x.val < r.val := by simpa [Instr.writesV] using h
    have hout : (s.mem.readBytes s.ea (x.val + 1))[r.val - 0]? = none := by
      rw [Memory.getElem?_readBytes, if_neg (by omega)]
    exact (getElem_writeRegs _ s.v 0 r.val r.isLt).trans (by rw [hout]; simp [State.getV_eq])
  | _ => rfl

/-- An instruction that stores nothing leaves memory alone. -/
theorem State.effect_mem_of_no_store {s : State} {i : Instr} (h : storeRange i s = none) :
    (s.effect i).mem = s.mem := by
  cases i with
  | cls | call | drw | ldBVx | storeRegs => cases h
  | seImm | sneImm | seReg | sneReg | skp | sknp => exact State.skipIf_mem s _
  | ldVxK => dsimp only [State.effect]; split <;> rfl
  | _ => rfl

theorem State.length_regsUpTo (s : State) (x : Reg) : (s.regsUpTo x).length = x.val + 1 := by
  simp [State.regsUpTo]

/-- An instruction that stores leaves every byte outside its range alone (20_memory R63). -/
theorem State.read_effect_outside {s : State} {i : Instr} {base len a : Nat} (h : storeRange i s = some (base, len))
    (ha : a < base ∨ base + len ≤ a) : (s.effect i).mem.read a = s.mem.read a := by
  cases i with
  | cls =>
    obtain ⟨rfl, rfl⟩ : s.params.fbBase = base ∧ fbBytes = len := by simpa [storeRange] using h
    exact (Memory.read_cleared s.mem s.params a).trans (if_neg (by omega))
  | call nnn => cases h; exact Memory.read_writeBytes_outside _ _ _ _ ha
  | drw x y n =>
    obtain ⟨rfl, rfl⟩ : s.params.fbBase = base ∧ fbBytes = len := by simpa [storeRange] using h
    exact (congrArg (Memory.read · a) (State.drawn_mem s x y n)).trans (State.read_canvas_outside s x y n ha)
  | ldBVx x => cases h; exact Memory.read_writeBytes_outside _ _ _ _ ha
  | storeRegs x =>
    cases h
    exact Memory.read_writeBytes_outside _ _ _ _ (by rwa [State.length_regsUpTo])
  | _ => cases h

theorem State.effect_i {s : State} {i : Instr} (h : i.writesI = false) : (s.effect i).i = s.i := by
  cases i with
  | ldI | addIVx | ldFVx | storeRegs | loadRegs => cases h
  | seImm | sneImm | seReg | sneReg | skp | sknp => exact State.skipIf_i s _
  | drw x y n => exact State.drawn_i s x y n
  | ldVxK => dsimp only [State.effect]; split <;> rfl
  | _ => rfl

/-! ## SP, PC, the timers and `dirty` -/

theorem State.effect_sp {s : State} {i : Instr} (hcall : ∀ nnn, i ≠ .call nnn) (hret : i ≠ .ret) :
    (s.effect i).sp = s.sp := by
  cases i with
  | call nnn => exact absurd rfl (hcall nnn)
  | ret => exact absurd rfl hret
  | seImm | sneImm | seReg | sneReg | skp | sknp => exact State.skipIf_sp s _
  | drw x y n => exact State.drawn_sp s x y n
  | ldVxK => dsimp only [State.effect]; split <;> rfl
  | _ => rfl

theorem State.effect_dt {s : State} {i : Instr} (h : ∀ x, i ≠ .ldDTVx x) : (s.effect i).dt = s.dt := by
  cases i with
  | ldDTVx x => exact absurd rfl (h x)
  | seImm | sneImm | seReg | sneReg | skp | sknp => exact State.skipIf_dt s _
  | drw x y n => exact State.drawn_dt s x y n
  | ldVxK => dsimp only [State.effect]; split <;> rfl
  | _ => rfl

theorem State.effect_st {s : State} {i : Instr} (h : ∀ x, i ≠ .ldSTVx x) : (s.effect i).st = s.st := by
  cases i with
  | ldSTVx x => exact absurd rfl (h x)
  | seImm | sneImm | seReg | sneReg | skp | sknp => exact State.skipIf_st s _
  | drw x y n => exact State.drawn_st s x y n
  | ldVxK => dsimp only [State.effect]; split <;> rfl
  | _ => rfl

theorem State.effect_pc {s : State} {i : Instr} (h : i.branches = false) : (s.effect i).pc = s.pc := by
  cases i with
  | ret | jp | call | seImm | sneImm | seReg | sneReg | jpV0 | skp | sknp => cases h
  | drw x y n => exact State.drawn_pc s x y n
  | ldVxK => dsimp only [State.effect]; split <;> rfl
  | _ => rfl

/-- An effect sets `dirty` exactly as the table says (10_state R32). -/
theorem State.effect_dirty (s : State) (i : Instr) : (s.effect i).dirty = (s.dirty || setsDirty i s) := by
  cases i with
  | cls | ldBVx => rfl
  | drw x y n => exact (State.drawn_dirty s x y n).trans (Bool.or_true _).symm
  | storeRegs x =>
    exact congrArg (fun len => s.dirty || s.params.touchesFB s.ea len) (State.length_regsUpTo s x)
  | seImm | sneImm | seReg | sneReg | skp | sknp =>
    exact (State.skipIf_dirty s _).trans (Bool.or_false _).symm
  | ldVxK => dsimp only [State.effect]; split <;> exact (Bool.or_false _).symm
  | _ => exact (Bool.or_false _).symm

/-! ## The fields no rule writes -/

/-- No instruction writes the parameters, the inputs, the step counter or the presents. -/
theorem State.effect_keeps_own (s : State) (i : Instr) : s.effect i =
    { s.effect i with params := s.params, inputs := s.inputs, draws := s.draws, presents := s.presents } := by
  cases i with
  | seImm | sneImm | seReg | sneReg | skp | sknp => dsimp only [State.effect, State.skipIf]; split <;> rfl
  | drw x y n => dsimp only [State.effect, State.drawn]; split <;> rfl
  | ldVxK => dsimp only [State.effect]; split <;> rfl
  | _ => rfl

@[simp] theorem State.effect_params (s : State) (i : Instr) : (s.effect i).params = s.params := by
  rw [State.effect_keeps_own]
@[simp] theorem State.effect_inputs (s : State) (i : Instr) : (s.effect i).inputs = s.inputs := by
  rw [State.effect_keeps_own]
@[simp] theorem State.effect_draws (s : State) (i : Instr) : (s.effect i).draws = s.draws := by
  rw [State.effect_keeps_own]
@[simp] theorem State.effect_presents (s : State) (i : Instr) : (s.effect i).presents = s.presents := by
  rw [State.effect_keeps_own]

/-- Only a key wait writes the result (notes/assumptions/2.md). -/
theorem State.effect_result (s : State) (i : Instr) : (s.effect i).result = s.result ∨ ∃ x, i = .ldVxK x := by
  cases i with
  | ldVxK x => exact .inr ⟨x, rfl⟩
  | seImm | sneImm | seReg | sneReg | skp | sknp => exact .inl (State.skipIf_result s _)
  | drw x y n => exact .inl (State.drawn_result s x y n)
  | _ => exact .inl rfl

/-! ## The obligations -/

/-- Settles O42: what a register reads after the effect. -/
theorem registerFrame : Obligations.RegisterFrame := by
  unfold Obligations.RegisterFrame
  intro i s t h r hr
  obtain ⟨-, rfl⟩ := exec_eq_next_iff.mp h
  exact State.getV_effect hr

/-- Settles O43: an effect that stores is a write of its range, the framebuffer's toggles included. -/
theorem memoryFrame : Obligations.MemoryFrame := by
  unfold Obligations.MemoryFrame
  intro i s t h
  obtain ⟨-, rfl⟩ := exec_eq_next_iff.mp h
  exact ⟨fun hnone a => by rw [State.effect_mem_of_no_store hnone],
    fun base len hsome a ha => State.read_effect_outside hsome ha⟩

/-- Settles O44: one fact of the effect for each field. -/
theorem specialRegisterFrame : Obligations.SpecialRegisterFrame := by
  unfold Obligations.SpecialRegisterFrame
  intro i s t h
  obtain ⟨-, rfl⟩ := exec_eq_next_iff.mp h
  exact ⟨State.effect_i, State.effect_sp, State.effect_dt, State.effect_st, State.effect_pc, s.effect_dirty i,
    s.effect_params i, s.effect_inputs i, s.effect_draws i, s.effect_presents i, s.effect_result i⟩

end Sys2Proof.Machine
end

section
/-! SUPPORT. What instructions do not read (10_state R31; 60_exceptions R334, R337): ST, and for those that sample
nothing the step's inputs. Changing such a field and running the rule commute. -/

namespace Sys2Proof.Machine

/-! ## The inputs -/

/-- A state with other inputs to come. -/
def State.withInputs (s : State) (l : List Inputs) (d : Nat) : State := { s with inputs := l, draws := d }

variable (s : State) (i : Instr) (l : List Inputs) (d : Nat)

theorem State.ownCheck_withInputs : (s.withInputs l d).ownCheck i = s.ownCheck i := by
  cases i <;> rfl

theorem State.skipIf_withInputs (c : Bool) : (s.withInputs l d).skipIf c = (s.skipIf c).withInputs l d := by
  cases c <;> rfl

theorem State.drawn_withInputs (x y : Reg) (n : Fin 16) :
    (s.withInputs l d).drawn x y n = (s.drawn x y n).withInputs l d := by
  rw [State.drawn_eq, State.drawn_eq s, State.drawn_v, State.drawn_v]; rfl

/-- The effect of an instruction that samples nothing commutes with a change of the inputs. -/
theorem State.effect_withInputs {s : State} {i : Instr} (h : i.samplesInput = false) (l : List Inputs) (d : Nat) :
    (s.withInputs l d).effect i = (s.effect i).withInputs l d := by
  cases i with
  | rnd | skp | sknp | ldVxK => cases h
  | seImm | sneImm | seReg | sneReg => exact State.skipIf_withInputs s l d _
  | drw x y n => exact State.drawn_withInputs s l d x y n
  | _ => rfl

/-! ## The sound timer -/

theorem State.ownCheck_setSt (b : Byte) : (s.setSt b).ownCheck i = s.ownCheck i := by
  cases i <;> rfl

theorem State.skipIf_setSt (b : Byte) (c : Bool) : (s.setSt b).skipIf c = (s.skipIf c).setSt b := by
  cases c <;> rfl

theorem State.drawn_setSt (b : Byte) (x y : Reg) (n : Fin 16) :
    (s.setSt b).drawn x y n = (s.drawn x y n).setSt b := by
  rw [State.drawn_eq, State.drawn_eq s, State.drawn_v, State.drawn_v]; rfl

/-- The effect of an instruction that does not write ST commutes with a change of it. -/
theorem State.effect_setSt {s : State} {i : Instr} (h : ∀ x, i ≠ .ldSTVx x) (b : Byte) :
    (s.setSt b).effect i = (s.effect i).setSt b := by
  cases i with
  | ldSTVx x => exact absurd rfl (h x)
  | seImm | sneImm | seReg | sneReg | skp | sknp => exact State.skipIf_setSt s b _
  | drw x y n => exact State.drawn_setSt s b x y n
  | ldVxK x =>
    have hinput : (s.setSt b).input = s.input := rfl
    dsimp only [State.effect]
    rw [hinput]
    split <;> rfl
  | _ => rfl

/-! ## The obligations -/

/-- Settles O46: neither the check nor the effect of an instruction that samples nothing sees the inputs. -/
theorem onlySamplersSeeInputs : Obligations.OnlySamplersSeeInputs := by
  unfold Obligations.OnlySamplersSeeInputs
  intro i s l d hi
  refine ⟨fun t h => ?next, fun f h => ?fault⟩
  case next =>
    obtain ⟨hcheck, rfl⟩ := exec_eq_next_iff.mp h
    exact exec_eq_next_iff.mpr ⟨(s.ownCheck_withInputs i l d).trans hcheck, State.effect_withInputs hi l d⟩
  case fault => exact exec_eq_fault_iff.mpr ((s.ownCheck_withInputs i l d).trans (exec_eq_fault_iff.mp h))

/-- Settles O47: no check sees ST, no effect but that of `fx18` does, and `fx18` overwrites it. -/
theorem noInstructionReadsSoundTimer : Obligations.NoInstructionReadsSoundTimer := by
  unfold Obligations.NoInstructionReadsSoundTimer
  intro i s b
  refine ⟨fun f h => exec_eq_fault_iff.mpr ((s.ownCheck_setSt i b).trans (exec_eq_fault_iff.mp h)), fun t h => ?_⟩
  obtain ⟨hcheck, rfl⟩ := exec_eq_next_iff.mp h
  have hcheck' : (s.setSt b).ownCheck i = none := (s.ownCheck_setSt i b).trans hcheck
  refine ⟨fun hi => exec_eq_next_iff.mpr ⟨hcheck', State.effect_setSt hi b⟩, ?_⟩
  rintro ⟨x, rfl⟩
  exact exec_eq_next_iff.mpr ⟨hcheck', rfl⟩

end Sys2Proof.Machine
end

section
/-! SUPPORT. The logic instructions, the random byte and the key instructions (41_register_alu R164 to R166, R172;
44_timers_keypad R261, R262, R266): each is one write of V[x] or one skip. -/

namespace Sys2Proof.Machine

/-! ## The rules of the instructions -/

theorem exec_orReg (x y : Reg) (s : State) : exec (.orReg x y) s = .next (s.setV x (s.getV x ||| s.getV y)) := rfl

theorem exec_andReg (x y : Reg) (s : State) : exec (.andReg x y) s = .next (s.setV x (s.getV x &&& s.getV y)) := rfl

theorem exec_xorReg (x y : Reg) (s : State) : exec (.xorReg x y) s = .next (s.setV x (s.getV x ^^^ s.getV y)) := rfl

theorem exec_rnd (x : Reg) (kk : Byte) (s : State) : exec (.rnd x kk) s = .next (s.setV x (s.input.rnd &&& kk)) := rfl

theorem exec_skp (x : Reg) (s : State) : exec (.skp x) s = .next (s.skipIf (s.held (keyOf (s.getV x)))) := rfl

theorem exec_sknp (x : Reg) (s : State) : exec (.sknp x) s = .next (s.skipIf (!s.held (keyOf (s.getV x)))) := rfl

theorem exec_ldVxK_of_press {x : Reg} {k : Key} {s : State} (h : s.input.press = some k) :
    exec (.ldVxK x) s = .next (s.setV x (keyByte k)) := by
  simp [exec, execLdVxK, h]

theorem exec_ldVxK_of_no_press {x : Reg} {s : State} (h : s.input.press = none) :
    exec (.ldVxK x) s = .next s.awaitKey := by
  simp [exec, execLdVxK, h]

/-- The listed inputs come first (notes/assumptions/1.md). -/
theorem State.input_of_cons {s : State} {inp : Inputs} {rest : List Inputs} (h : s.inputs = inp :: rest) :
    s.input = inp := by
  simp [State.input, h]

/-! ## The obligations -/

/-- Settles O8: each is one `State.setV`, so VF stays unless x is 15. -/
theorem logicWritesVxAlone : Obligations.LogicWritesVxAlone := by
  unfold Obligations.LogicWritesVxAlone
  refine ⟨fun x y s => ?or, fun x y s => ?and, fun x y s => ?xor, fun x y => ?orCode, fun x y => ?andCode,
    fun x y => ?xorCode⟩
  case or => rw [exec_orReg, State.setV_eq, State.getV_eq, State.getV_eq]
  case and => rw [exec_andReg, State.setV_eq, State.getV_eq, State.getV_eq]
  case xor => rw [exec_xorReg, State.setV_eq, State.getV_eq, State.getV_eq]
  case orCode => exact encodesAs_of_hitsRow (Laws.EncodeHitsRow.orReg x y)
  case andCode => exact encodesAs_of_hitsRow (Laws.EncodeHitsRow.andReg x y)
  case xorCode => exact encodesAs_of_hitsRow (Laws.EncodeHitsRow.xorReg x y)

/-- Settles O12: one `State.setV` of the masked input, the first listed where inputs are listed. -/
theorem randomByteIsMasked : Obligations.RandomByteIsMasked := by
  unfold Obligations.RandomByteIsMasked
  refine ⟨fun x kk s => ?effect, fun s inp rest h => State.input_of_cons h, fun x kk => ?code⟩
  case effect => rw [exec_rnd, State.setV_eq]
  case code => exact encodesAs_of_hitsRow (Laws.EncodeHitsRow.rnd x kk)

/-- Settles O32: both are `State.skipIf` of a test of the key `keyOf` numbers. -/
theorem keySkipsFollowHeldKeys : Obligations.KeySkipsFollowHeldKeys := by
  unfold Obligations.KeySkipsFollowHeldKeys
  refine ⟨fun x s => ?held, fun x s => ?notHeld⟩
  case held =>
    have htest : s.held (keyOf (s.getV x)) = true ↔ s.input.held[s.v[x.val].toNat % 16] = true := Iff.rfl
    rw [exec_skp, State.skipIf_eq_of_iff s htest]
  case notHeld =>
    have htest : (!s.held (keyOf (s.getV x))) = true ↔ ¬ s.input.held[s.v[x.val].toNat % 16] = true := by
      rw [Bool.not_eq_true', ← Bool.not_eq_true]; rfl
    rw [exec_sknp, State.skipIf_eq_of_iff s htest, ite_not]

/-- Settles O34: with a key pressed the rule is one `State.setV` of its number. -/
theorem keyWaitStoresPressedKey : Obligations.KeyWaitStoresPressedKey := by
  unfold Obligations.KeyWaitStoresPressedKey
  intro x k s h
  rw [exec_ldVxK_of_press h, State.setV_eq]
  rfl

end Sys2Proof.Machine
end

section
/-! SUPPORT. Call and return (40_control R120, R121, R123, R129): the check of each as a bound on SP, and the slot a
push writes. -/

namespace Sys2Proof.Machine

theorem State.pushFault_eq_none {s : State} (hpos : 0 < s.sp.toNat) (hle : s.sp.toNat ≤ s.params.stackSlots) :
    s.pushFault = none :=
  State.pushFault_eq_none_iff.mpr ⟨fun h => by simp [h] at hpos, hle⟩

theorem exec_call {s : State} (hpos : 0 < s.sp.toNat) (hle : s.sp.toNat ≤ s.params.stackSlots) (nnn : BitVec 12) :
    exec (.call nnn) s = .next ((s.pushed s.pc).setPc (addrWord nnn)) :=
  exec_of_check (i := .call nnn) (State.pushFault_eq_none hpos hle)

theorem exec_ret {s : State} (h : s.sp.toNat < s.params.stackSlots) :
    exec .ret s = .next (s.popped.setPc s.stackTop) :=
  exec_of_check (i := .ret) (State.popFault_eq_none_iff.mpr h)

/-- SP after a push (40_control R120). -/
theorem toNat_sub_one {b : Byte} (h : 0 < b.toNat) : (b - 1#8).toNat = b.toNat - 1 := by
  bv_omega

/-- A push leaves a slot address whose two bytes lie in memory. -/
theorem State.pushSlot_add_le {s : State} (hwf : s.params.wf = true) (hpos : 0 < s.sp.toNat)
    (hle : s.sp.toNat ≤ s.params.stackSlots) : s.params.slotAddr (s.sp.toNat - 1) + 2 ≤ memSize :=
  Params.slotAddr_add_le hwf (by omega)

/-- The bytes of a word written, and that the others stay (20_memory R61, R71). -/
theorem Memory.read_writeWord (m : Memory) {a : Nat} (h : a + 2 ≤ memSize) (w : Word) :
    (m.writeWord a w).read a = highByte w ∧ (m.writeWord a w).read (a + 1) = lowByte w ∧
      ∀ c, c < a ∨ a + 2 ≤ c → (m.writeWord a w).read c = m.read c := by
  have hfit : a + [highByte w, lowByte w].length ≤ memSize := h
  refine ⟨?_, ?_, fun c hc => Memory.read_writeBytes_outside _ m a c hc⟩
  · rw [Memory.writeWord, Memory.read_writeBytes _ m a hfit]; simp
  · rw [Memory.writeWord, Memory.read_writeBytes _ m a hfit]; simp

/-! ## The obligations -/

/-- Settles O15: a push is one word written to the new top slot, which lies in memory. -/
theorem callPushesReturnAddress : Obligations.CallPushesReturnAddress := by
  unfold Obligations.CallPushesReturnAddress
  intro nnn s hwf hpos hle
  obtain ⟨hhigh, hlow, hframe⟩ := Memory.read_writeWord s.mem (State.pushSlot_add_le hwf hpos hle) s.pc
  exact ⟨_, exec_call hpos hle nnn, by rw [addrWord_eq_ofNat]; rfl, hhigh, hlow, hframe⟩

/-- Settles O16: a return writes PC and SP alone. -/
theorem returnPopsReturnAddress : Obligations.ReturnPopsReturnAddress := by
  unfold Obligations.ReturnPopsReturnAddress
  exact fun s h => exec_ret h

/-- Settles O19: the slot a return reads is the one the call wrote, since the call's SP is one below. -/
theorem callThenReturnRestores : Obligations.CallThenReturnRestores := by
  unfold Obligations.CallThenReturnRestores
  intro nnn s hwf hpos hle
  refine ⟨_, exec_call hpos hle nnn, fun u hparams hsp hslot => ?_⟩
  have husp : u.sp = s.sp - 1#8 := hsp
  have huparams : u.params = s.params := hparams
  have hnat : u.sp.toNat = s.sp.toNat - 1 := by rw [husp, toNat_sub_one hpos]
  have htop : u.stackTop = s.pc := by
    have hslot' : u.mem.readWord (s.params.slotAddr (s.sp - 1#8).toNat) =
        (s.mem.writeWord (s.params.slotAddr (s.sp.toNat - 1)) s.pc).readWord
          (s.params.slotAddr (s.sp - 1#8).toNat) := hslot
    rw [toNat_sub_one hpos, Memory.readWord_writeWord _ _ (State.pushSlot_add_le hwf hpos hle)] at hslot'
    rw [State.stackTop, huparams, hnat, hslot']
  refine ⟨_, exec_ret (by rw [hnat, huparams]; omega), htop, ?_⟩
  show u.sp + 1#8 = s.sp
  rw [husp, BitVec.sub_add_cancel]

end Sys2Proof.Machine
end

section
/-! SUPPORT. Glyph addresses and the memory transfers (43_index_memory R233 to R238; 20_memory R67): the range check as
a bound, the bytes a store leaves, the registers a load leaves. -/

namespace Sys2Proof.Machine

/-! ## The rules of the instructions -/

theorem exec_ldFVx (x : Reg) (s : State) : exec (.ldFVx x) s = .next (s.setI (s.glyphAddr (s.getV x))) := rfl

theorem exec_ldBVx {s : State} (h : s.ea + 3 ≤ memSize) (x : Reg) :
    exec (.ldBVx x) s = .next (s.stored s.ea (bcdDigits (s.getV x))) :=
  exec_of_check (i := .ldBVx x) (State.rangeFault_eq_none_iff.mpr h)

theorem exec_storeRegs {s : State} {x : Reg} (h : s.ea + (x.val + 1) ≤ memSize) :
    exec (.storeRegs x) s = .next ((s.stored s.ea (s.regsUpTo x)).advanceI (x.val + 1)) :=
  exec_of_check (i := .storeRegs x) (State.rangeFault_eq_none_iff.mpr h)

theorem exec_loadRegs {s : State} {x : Reg} (h : s.ea + (x.val + 1) ≤ memSize) :
    exec (.loadRegs x) s = .next ((s.loadedRegs (s.mem.readBytes s.ea (x.val + 1))).advanceI (x.val + 1)) :=
  exec_of_check (i := .loadRegs x) (State.rangeFault_eq_none_iff.mpr h)

/-! ## Addresses and the range check -/

/-- The masked I as the base a fault names (20_memory R67). -/
theorem State.trunc16_ea (s : State) : trunc16 s.ea = s.i &&& 0x0FFF#16 := by
  have h := trunc12_eq_and s.i.toNat
  rwa [BitVec.ofNat_toNat, BitVec.setWidth_eq] at h

/-- Truncating I plus a length is adding in 16 bits (decision D9). -/
theorem State.advanceI_eq (s : State) (len : Nat) : s.advanceI len = { s with i := s.i + BitVec.ofNat 16 len } := by
  have h : trunc16 (s.i.toNat + len) = s.i + BitVec.ofNat 16 len := by
    rw [trunc16, BitVec.ofNat_add, BitVec.ofNat_toNat, BitVec.setWidth_eq]
  rw [State.advanceI, h]
  rfl

/-- An instruction whose check is a range check raises its fault exactly when the range passes the end of memory. -/
theorem exec_rangeFault_iff {i : Instr} {s : State} {op : MemOp} {len : Nat}
    (hcheck : s.ownCheck i = s.rangeFault op len) :
    exec i s = .fault (.memoryRange op (s.i &&& 0x0FFF#16) len) ↔ 0x1000 < s.i.toNat % 0x1000 + len := by
  rw [exec_eq_fault_iff, hcheck, State.rangeFault_eq_some_iff, State.trunc16_ea]
  exact and_iff_left rfl

/-- The glyph formula needs no truncation under the constraints of 00_scope R6. -/
theorem State.glyphAddr_toNat {s : State} (hwf : s.params.wf = true) (b : Byte) :
    (s.glyphAddr b).toNat = s.params.fontBase + s.params.glyphStride * (b.toNat % 16) ∧
      (s.glyphAddr b).toNat < 0x1000 := by
  simp only [Params.wf, Params.fontInMemory, Params.hasStride, Bool.and_eq_true, decide_eq_true_eq] at hwf
  obtain ⟨⟨-, hfont⟩, hstride⟩ := hwf
  unfold memSize at hfont
  have hmul : s.params.glyphStride * (b.toNat % 16) ≤ s.params.glyphStride * 15 := Nat.mul_le_mul_left _ (by omega)
  rw [State.glyphAddr, trunc16, BitVec.toNat_ofNat, Nat.mod_eq_of_lt (by omega)]
  omega

/-! ## Bytes stored and registers loaded -/

/-- Each byte of a store that fits in memory reads back. -/
theorem Memory.read_writeBytes_at {bs : List Byte} {m : Memory} {a k : Nat} {b : Byte} (h : a + bs.length ≤ memSize)
    (hk : bs[k]? = some b) : (m.writeBytes a bs).read (a + k) = b := by
  rw [Memory.read_writeBytes _ m a h, if_pos (by omega), Nat.add_sub_cancel_left, hk, Option.getD_some]

/-- `dirty` after a store: some byte of the range lies in the framebuffer region (43_index_memory R230). -/
theorem State.stored_dirty_iff {s : State} {base : Nat} {bs : List Byte} : (s.stored base bs).dirty = true ↔
    s.dirty = true ∨ ∃ k, k < bs.length ∧ s.params.fbBase ≤ base + k ∧ base + k < s.params.fbBase + fbBytes := by
  rw [State.stored_dirty, Bool.or_eq_true, Params.touchesFB_iff]
  simp only [Params.inFB_iff]

theorem State.getElem?_regsUpTo {s : State} {x r : Reg} (h : r ≤ x) : (s.regsUpTo x)[r.val]? = some s.v[r.val] := by
  have hlt : r.val < x.val + 1 := Nat.lt_succ_of_le h
  simp [State.regsUpTo, hlt]

/-- What a register holds after a block load (43_index_memory R236). -/
theorem State.loadedRegs_getElem (s : State) (x r : Reg) (base : Nat) :
    (s.loadedRegs (s.mem.readBytes base (x.val + 1))).v[r.val] =
      if r ≤ x then s.mem.read (base + r.val) else s.v[r.val] := by
  rw [State.loadedRegs_v, getElem_writeRegs _ _ _ _ r.isLt, if_pos (Nat.zero_le _),
    Memory.getElem?_readBytes, Nat.sub_zero]
  by_cases h : r ≤ x
  · rw [if_pos h, if_pos (Nat.lt_succ_of_le h), Option.getD_some]
  · rw [if_neg h, if_neg (fun hlt => h (Nat.le_of_lt_succ hlt)), Option.getD_none]

/-- The digits of a byte need no truncation. -/
theorem bcdDigits_toNat (b : Byte) :
    (trunc8 (b.toNat / 100)).toNat = b.toNat / 100 ∧ (trunc8 (b.toNat / 10 % 10)).toNat = b.toNat / 10 % 10 ∧
      (trunc8 (b.toNat % 10)).toNat = b.toNat % 10 := by
  have := b.isLt
  simp only [trunc8, BitVec.toNat_ofNat]
  omega

/-! ## The obligations -/

/-- Settles O21: one write of I, the glyph's address exact under the constraints on the parameters. -/
theorem glyphAddressLoads : Obligations.GlyphAddressLoads := by
  unfold Obligations.GlyphAddressLoads
  exact fun x s hwf => ⟨_, exec_ldFVx x s, rfl, State.glyphAddr_toNat hwf (s.getV x)⟩

/-- Settles O22: a store of the three digits, each read back at its place. -/
theorem bcdStoresDigits : Obligations.BcdStoresDigits := by
  unfold Obligations.BcdStoresDigits
  intro x s h
  have hfit : s.ea + (bcdDigits (s.getV x)).length ≤ memSize := h
  obtain ⟨hhundreds, htens, hones⟩ := bcdDigits_toNat (s.getV x)
  refine ⟨_, exec_ldBVx h x, rfl, ?hundreds, ?tens, ?ones, ?frame, State.stored_dirty_iff⟩
  case hundreds => exact (congrArg _ (Memory.read_writeBytes_at (k := 0) hfit rfl)).trans hhundreds
  case tens => exact (congrArg _ (Memory.read_writeBytes_at (k := 1) hfit rfl)).trans htens
  case ones => exact (congrArg _ (Memory.read_writeBytes_at (k := 2) hfit rfl)).trans hones
  case frame => exact fun a ha => Memory.read_writeBytes_outside _ _ _ _ ha

/-- Settles O23: the digits are exact, and division by 10 and by 100 gives them. -/
theorem bcdDigitsMakeUpValue : Obligations.BcdDigitsMakeUpValue := by
  unfold Obligations.BcdDigitsMakeUpValue
  intro v
  obtain ⟨hhundreds, htens, hones⟩ := bcdDigits_toNat v
  have hv := v.isLt
  exact ⟨_, _, _, rfl, by omega, by omega, by omega, by omega, by omega⟩

/-- Settles O24: a store of the registers in order, then I's advance. -/
theorem blockStoreWritesRegisters : Obligations.BlockStoreWritesRegisters := by
  unfold Obligations.BlockStoreWritesRegisters
  intro x s h
  have hlen := State.length_regsUpTo s x
  have hfit : s.ea + (s.regsUpTo x).length ≤ memSize := by rw [hlen]; exact h
  refine ⟨_, exec_storeRegs h, ?fields, ?stored, ?frame, ?dirty⟩
  case fields => rw [State.advanceI_eq]; rfl
  case stored => exact fun r hr => Memory.read_writeBytes_at hfit (State.getElem?_regsUpTo hr)
  case frame => exact fun a ha => Memory.read_writeBytes_outside _ _ _ _ (by rwa [hlen])
  case dirty =>
    rw [State.advanceI_dirty, State.stored_dirty_iff, hlen]
    exact or_congr_right (exists_congr fun k => and_congr_left' Nat.lt_succ_iff)

/-- Settles O25: the registers a byte is given for, then I's advance. -/
theorem blockLoadReadsRegisters : Obligations.BlockLoadReadsRegisters := by
  unfold Obligations.BlockLoadReadsRegisters
  intro x s h
  exact ⟨_, exec_loadRegs h, by rw [State.advanceI_eq]; rfl, fun r => State.loadedRegs_getElem s x r s.ea⟩

/-- Settles O26: the load reads the bytes the store left, since both bases are the same modulo 2^12. -/
theorem blockTransferRoundTrip : Obligations.BlockTransferRoundTrip := by
  unfold Obligations.BlockTransferRoundTrip
  intro x s h
  refine ⟨_, exec_storeRegs h, fun u hmem hi => ?_⟩
  have hea : u.ea = s.ea := hi
  refine ⟨_, exec_loadRegs (s := u) (by rw [hea]; exact h), fun r hr => ?_⟩
  have hfit : s.ea + (s.regsUpTo x).length ≤ memSize := by rw [State.length_regsUpTo]; exact h
  calc ((u.loadedRegs (u.mem.readBytes u.ea (x.val + 1))).advanceI (x.val + 1)).v[r.val]
      = if r ≤ x then u.mem.read (u.ea + r.val) else u.v[r.val] := State.loadedRegs_getElem u x r u.ea
    _ = (s.mem.writeBytes s.ea (s.regsUpTo x)).read (s.ea + r.val) := by rw [if_pos hr, hmem, hea]; rfl
    _ = s.v[r.val] := Memory.read_writeBytes_at hfit (State.getElem?_regsUpTo hr)

/-- Settles O27: the four instructions whose check is a range check of their own operation and length. -/
theorem rangeFaultsExactlyPastMemory : Obligations.RangeFaultsExactlyPastMemory := by
  unfold Obligations.RangeFaultsExactlyPastMemory
  exact fun s => ⟨fun x y n => exec_rangeFault_iff rfl, fun x => exec_rangeFault_iff rfl,
    fun x => exec_rangeFault_iff rfl, fun x => exec_rangeFault_iff rfl⟩

end Sys2Proof.Machine
end

section
/-! SUPPORT. The step as a whole (60_exceptions R300, R331): the three ways it starts, the ways it ends, and the
statements about its result, PC and presents. -/

namespace Sys2Proof.Machine

/-! ## How a step starts -/

theorem step_of_not_fetchable {s : State} (h : s.fetchable = false) :
    step s = .fault (.memoryRange .fetch s.pc 2) := by
  rw [step, State.fetch_of_not_fetchable h]

theorem step_of_decodes {s : State} {i : Instr} (hf : s.fetchable = true)
    (hd : decodeWord (s.mem.readWord s.pc.toNat) = some i) : step s = s.settle (exec i s.fetched) := by
  have hbytes : decode [s.mem.read s.pc.toNat, s.mem.read (s.pc.toNat + 1)] = .ok (i, []) :=
    decode_cons_cons_eq_ok_iff.mpr ⟨rfl, hd⟩
  rw [step, State.fetch_of_fetchable hf]
  simp only [hbytes]

theorem step_of_illegal {s : State} (hf : s.fetchable = true)
    (hd : decodeWord (s.mem.readWord s.pc.toNat) = none) :
    step s = .fault (.illegalOpcode (s.mem.readWord s.pc.toNat) s.pc) := by
  have hbytes : decode [s.mem.read s.pc.toNat, s.mem.read (s.pc.toNat + 1)] =
      .error (.illegal (s.mem.readWord s.pc.toNat)) := by
    unfold Memory.readWord at hd ⊢
    rw [decode, hd]
  rw [step, State.fetch_of_fetchable hf]
  simp only [hbytes, State.decodeFault]

/-- Everything a step can be: the fetch's fault, the decoder's, or the end of a step over the decoded instruction. -/
theorem step_cases (s : State) :
    (s.fetchable = false ∧ step s = .fault (.memoryRange .fetch s.pc 2)) ∨
    (s.fetchable = true ∧ decodeWord (s.mem.readWord s.pc.toNat) = none ∧
      step s = .fault (.illegalOpcode (s.mem.readWord s.pc.toNat) s.pc)) ∨
    ∃ i, s.fetchable = true ∧ decodeWord (s.mem.readWord s.pc.toNat) = some i ∧
      step s = s.settle (exec i s.fetched) := by
  cases hf : s.fetchable with
  | false => exact .inl ⟨rfl, step_of_not_fetchable hf⟩
  | true =>
    cases hd : decodeWord (s.mem.readWord s.pc.toNat) with
    | none => exact .inr (.inl ⟨rfl, rfl, step_of_illegal hf hd⟩)
    | some i => exact .inr (.inr ⟨i, rfl, rfl, step_of_decodes hf hd⟩)

/-! ## How a step ends -/

theorem State.settle_eq_fault_iff {s0 : State} {o : Outcome} {f : Fault} : s0.settle o = .fault f ↔ o = .fault f := by
  cases o <;> simp [State.settle]

theorem exec_ne_refused (i : Instr) (s : State) (r : Refusal) : exec i s ≠ .refused r := by
  rw [exec_eq_guarded]
  exact guarded_ne_refused

/-- A completed step commits an effect and presents it, or waits for a key and keeps the state. -/
theorem step_eq_next_cases {s t : State} (h : step s = .next t) :
    ∃ i, s.fetchable = true ∧ decodeWord (s.mem.readWord s.pc.toNat) = some i ∧ s.fetched.ownCheck i = none ∧
      (((s.fetched.effect i).result = .continued ∧ t = (s.fetched.effect i).presentIfDirty.nextInputs) ∨
        ((s.fetched.effect i).result = .awaitingKey ∧ t = ({ s with result := .awaitingKey } : State).nextInputs)) := by
  obtain ⟨-, hstep⟩ | ⟨-, -, hstep⟩ | ⟨i, hf, hd, hstep⟩ := step_cases s
  · rw [hstep] at h; cases h
  · rw [hstep] at h; cases h
  · rw [hstep] at h
    obtain ⟨u, hu, hend⟩ := State.settle_eq_next h
    obtain ⟨hcheck, rfl⟩ := exec_eq_next_iff.mp hu
    exact ⟨i, hf, hd, hcheck, hend⟩

theorem State.presentIfDirty_eq (s : State) : s.presentIfDirty =
    { s with presents := if s.dirty = true then s.frame :: s.presents else s.presents, dirty := false } := by
  unfold State.presentIfDirty
  split
  · rfl
  · next hd => rw [← Bool.eq_false_iff.mpr hd]

/-! ## The faults of the rules are not those of fetch and decode -/

theorem State.ownCheck_ne_fetch {s : State} {i : Instr} {base : Word} {len : Nat} :
    s.ownCheck i ≠ some (.memoryRange .fetch base len) := by
  cases i with
  | ret => simp [State.ownCheck, State.popFault_eq_some_iff]
  | call => simp [State.ownCheck, State.pushFault_eq_some_iff]
  | drw | ldBVx | storeRegs | loadRegs => simp [State.ownCheck, State.rangeFault_eq_some_iff]
  | _ => exact nofun

theorem State.ownCheck_ne_illegal {s : State} {i : Instr} {op a : Word} :
    s.ownCheck i ≠ some (.illegalOpcode op a) := by
  cases i with
  | ret => simp [State.ownCheck, State.popFault_eq_some_iff]
  | call => simp [State.ownCheck, State.pushFault_eq_some_iff]
  | drw | ldBVx | storeRegs | loadRegs => simp [State.ownCheck, State.rangeFault_eq_some_iff]
  | _ => exact nofun

theorem exec_next_or_fault (i : Instr) (s : State) :
    (∃ t, exec i s = .next t) ∨ ∃ f, s.ownCheck i = some f ∧ exec i s = .fault f := by
  rw [exec_eq_guarded]
  exact (guarded_cases (s.ownCheck i) (s.effect i)).imp (fun h => ⟨_, h.2⟩) id

/-- An instruction whose check is a range check completes or names its operation, masked base and length. -/
theorem exec_next_or_rangeFault {i : Instr} {s : State} {op : MemOp} {len : Nat}
    (hcheck : s.ownCheck i = s.rangeFault op len) :
    (∃ t, exec i s = .next t) ∨ exec i s = .fault (.memoryRange op (s.i &&& 0x0FFF#16) len) := by
  refine (exec_next_or_fault i s).imp id fun ⟨f, hf, hexec⟩ => ?_
  rw [hcheck, State.rangeFault_eq_some_iff, State.trunc16_ea] at hf
  rw [hexec, hf.2]

/-- An opcode is illegal exactly when no row of the map matches it (30_encoding R98, R100). -/
theorem decodeWord_eq_none_iff {op : Word} :
    decodeWord op = none ↔ ∀ r ∈ opcodeMap, op &&& r.mask ≠ r.pattern := by
  obtain ⟨i, hi, hmem, hhits, -⟩ | ⟨hnone, hno⟩ := oneRowOrIllegal op
  · refine iff_of_false (by simp [hi]) fun h => h _ hmem (OpcodeRow.hits_iff.mp hhits)
  · refine iff_of_true hnone fun r hr heq => ?_
    rw [← OpcodeRow.hits_iff, hno r hr] at heq
    cases heq

/-! ## The placed word (notes/assumptions/11.md) -/

theorem State.withFetchWord_eq (s : State) (w : Word) : s.withFetchWord 16 w.toNat = s.placeWord w := by
  rw [State.withFetchWord, Nat.mod_eq_of_lt w.isLt, BitVec.ofNat_toNat, BitVec.setWidth_eq]

theorem State.fetchable_placeWord (s : State) (w : Word) : (s.placeWord w).fetchable = true := by
  cases hf : s.fetchable with
  | true => simpa [State.fetchable_iff, State.placeWord, hf] using State.fetchable_iff.mp hf
  | false => simp [State.fetchable_iff, State.placeWord, hf]

theorem State.readWord_placeWord (s : State) (w : Word) :
    (s.placeWord w).mem.readWord (s.placeWord w).pc.toNat = w := by
  obtain ⟨-, -, hle⟩ := State.fetchable_iff.mp (s.fetchable_placeWord w)
  exact Memory.readWord_writeWord s.mem (s.placeWord w).pc.toNat (Nat.add_le_add_right hle 2) w

/-! ## The obligations -/

/-- Settles O35: the rule answers a key wait, whose end of the step restores the state. -/
theorem keyWaitRetries : Obligations.KeyWaitRetries := by
  unfold Obligations.KeyWaitRetries
  intro x s hf hd hpress
  have hfetched : s.fetched.input.press = none := hpress
  rw [step_of_decodes hf hd, exec_ldVxK_of_no_press hfetched, State.settle_next_awaiting rfl]
  rfl

/-- Settles O36: the end of a step over the instruction's outcome, case by case. -/
theorem stepRunsDecodedInstruction : Obligations.StepRunsDecodedInstruction := by
  unfold Obligations.StepRunsDecodedInstruction
  intro s i hf hd
  have hstep := step_of_decodes hf hd
  refine ⟨fun t hexec hres => ?continued, fun t hexec hres => ?awaiting, fun f hexec => ?fault⟩
  case continued =>
    have hexec' : exec i s.fetched = .next t := hexec
    rw [hstep, hexec', State.settle_next_continued hres, State.presentIfDirty_eq]
    rfl
  case awaiting =>
    have hexec' : exec i s.fetched = .next t := hexec
    rw [hstep, hexec', State.settle_next_awaiting hres]
    rfl
  case fault =>
    have hexec' : exec i s.fetched = .fault f := hexec
    rw [hstep, hexec', State.settle_fault]

/-- Settles O37: the fetch's fault is no rule's and not the decoder's, so it means that the fetch check failed. -/
theorem fetchFaultsExactlyOnBadPc : Obligations.FetchFaultsExactlyOnBadPc := by
  unfold Obligations.FetchFaultsExactlyOnBadPc
  intro s
  have hbad : s.fetchable = false ↔ s.pc.toNat % 2 ≠ 0 ∨ s.pc.toNat < 0x200 ∨ 0xFFE < s.pc.toNat := by
    rw [← Bool.not_eq_true, State.fetchable_iff]; omega
  rw [← hbad]
  refine ⟨fun h => ?_, step_of_not_fetchable⟩
  obtain ⟨hf, -⟩ | ⟨-, -, hstep⟩ | ⟨i, -, -, hstep⟩ := step_cases s
  · exact hf
  · rw [hstep] at h; cases h
  · rw [hstep, State.settle_eq_fault_iff, exec_eq_fault_iff] at h
    exact absurd h State.ownCheck_ne_fetch

/-- Settles O38: the decoder's fault is no rule's and not the fetch's, and the words it names match no row. -/
theorem illegalOpcodeExactlyOnNoRow : Obligations.IllegalOpcodeExactlyOnNoRow := by
  unfold Obligations.IllegalOpcodeExactlyOnNoRow
  intro s op a
  constructor
  · intro h
    obtain ⟨-, hstep⟩ | ⟨hf, hd, hstep⟩ | ⟨i, -, -, hstep⟩ := step_cases s
    · rw [hstep] at h; cases h
    · rw [hstep] at h
      cases h
      exact ⟨hf, rfl, rfl, decodeWord_eq_none_iff.mp hd⟩
    · rw [hstep, State.settle_eq_fault_iff, exec_eq_fault_iff] at h
      exact absurd h State.ownCheck_ne_illegal
  · rintro ⟨hf, rfl, rfl, hrows⟩
    exact step_of_illegal hf (decodeWord_eq_none_iff.mpr hrows)

/-- Settles O39: an instruction completes or answers the fault of its own check. -/
theorem ownFaultsPerInstruction : Obligations.OwnFaultsPerInstruction := by
  unfold Obligations.OwnFaultsPerInstruction
  intro i s
  cases i with
  | ret =>
    refine (exec_next_or_fault .ret s).imp id fun ⟨f, hf, hexec⟩ => ?_
    obtain ⟨-, rfl⟩ | ⟨hpast, rfl⟩ := State.popFault_eq_some_iff.mp hf
    · exact .inl hexec
    · exact .inr ⟨hexec, hpast⟩
  | call nnn =>
    refine (exec_next_or_fault (.call nnn) s).imp id fun ⟨f, hf, hexec⟩ => ?_
    obtain ⟨-, rfl⟩ | ⟨-, hpast, rfl⟩ := State.pushFault_eq_some_iff.mp hf
    · exact .inl hexec
    · exact .inr ⟨hexec, hpast⟩
  | drw | ldBVx | storeRegs | loadRegs => exact exec_next_or_rangeFault rfl
  | _ => exact ⟨_, exec_of_check rfl⟩

/-- Settles O40: a step's refusal would be its instruction's, and no instruction refuses. -/
theorem stepNeverRefuses : Obligations.StepNeverRefuses := by
  unfold Obligations.StepNeverRefuses
  intro s r h
  obtain ⟨-, hstep⟩ | ⟨-, -, hstep⟩ | ⟨i, -, -, hstep⟩ := step_cases s
  · rw [hstep] at h; cases h
  · rw [hstep] at h; cases h
  · rw [hstep] at h
    cases hexec : exec i s.fetched with
    | next t => rw [hexec] at h; cases h
    | fault f => rw [hexec] at h; cases h
    | refused r' => exact exec_ne_refused i s.fetched r' hexec

/-- Settles O41: the placed word is where the step fetches, and it decodes to the instruction. -/
theorem placedWordRunsNext : Obligations.PlacedWordRunsNext := by
  unfold Obligations.PlacedWordRunsNext
  intro s i
  rw [State.withFetchWord_eq]
  refine step_of_decodes (s.fetchable_placeWord _) ?_
  rw [s.readWord_placeWord, decodeWord_encodeWord]

/-- Settles O45: the fetch adds 2 to a PC of at most 0xFFE, and the effect leaves it. -/
theorem nonBranchingStepAdvancesPcByTwo : Obligations.NonBranchingStepAdvancesPcByTwo := by
  unfold Obligations.NonBranchingStepAdvancesPcByTwo
  intro s t i hf hd hbranch hstep hres
  obtain ⟨j, -, hj, -, ⟨-, rfl⟩ | ⟨-, rfl⟩⟩ := step_eq_next_cases hstep
  · obtain rfl : i = j := Option.some.inj (hd.symm.trans hj)
    obtain ⟨-, -, hle⟩ := State.fetchable_iff.mp hf
    rw [State.nextInputs_pc, State.presentIfDirty_pc, State.effect_pc hbranch, State.fetched_pc]
    bv_omega
  · cases hres

/-- Settles O48: `dirty` is clear before the step, so after the effect it says what the instruction set; a key wait
sets nothing and presents nothing. -/
theorem stepPresentsExactlyWhenDirty : Obligations.StepPresentsExactlyWhenDirty := by
  unfold Obligations.StepPresentsExactlyWhenDirty
  intro s t i hinv hf hd hstep
  obtain ⟨j, -, hj, -, ⟨-, rfl⟩ | ⟨hawait, rfl⟩⟩ := step_eq_next_cases hstep
  · obtain rfl : i = j := Option.some.inj (hd.symm.trans hj)
    have hdirty : (s.fetched.effect i).dirty = setsDirty i s.fetched := by
      rw [State.effect_dirty, State.fetched_dirty, hinv.notDirty, Bool.false_or]
    rw [State.nextInputs_presents, State.presentIfDirty_presents, hdirty, State.effect_presents]
    simp only [State.nextInputs_mem, State.presentIfDirty_mem, State.nextInputs_params, State.presentIfDirty_params]
    rfl
  · obtain rfl : i = j := Option.some.inj (hd.symm.trans hj)
    obtain hsame | ⟨x, rfl⟩ := s.fetched.effect_result i
    · rw [hawait] at hsame; cases hsame
    · rfl

end Sys2Proof.Machine
end

section
/-! SUPPORT. The clear and the step that runs it (42_display R201). -/

namespace Sys2Proof.Machine

theorem exec_cls (s : State) : exec .cls s = .next ((s.setMem (s.mem.cleared s.params)).dirtyIf true) :=
  exec_of_check (i := .cls) rfl

/-- The bytes of a cleared framebuffer. -/
theorem Memory.readBytes_cleared (m : Memory) (p : Params) :
    (m.cleared p).readBytes p.fbBase fbBytes = List.replicate fbBytes 0#8 := by
  rw [List.eq_replicate_iff]
  refine ⟨Memory.readBytes_length _ _ _, fun b hb => ?_⟩
  obtain ⟨k, hk, rfl⟩ := List.mem_map.mp hb
  rw [List.mem_range] at hk
  rw [Memory.read_cleared, if_pos (by omega)]

/-- Settles O28: the 256 stores read back as 0, the others as before, and the step presents what `dirty` announces. -/
theorem clearZeroesFramebuffer : Obligations.ClearZeroesFramebuffer := by
  unfold Obligations.ClearZeroesFramebuffer
  refine ⟨fun s => ⟨_, exec_cls s, ?fields, fun a hlow hhigh => ?zero, fun a ha => ?frame⟩,
    fun s hf hword => ?presents, encodesAs_of_hitsRow Laws.EncodeHitsRow.cls⟩
  case fields =>
    show State.dirtyIf _ true = _
    rw [State.dirtyIf, Bool.or_true]
    rfl
  case zero => exact (Memory.read_cleared s.mem s.params a).trans (if_pos ⟨hlow, hhigh⟩)
  case frame => exact (Memory.read_cleared s.mem s.params a).trans (if_neg fun h => by unfold fbBytes at h; omega)
  case presents =>
    have hd : decodeWord (s.mem.readWord s.pc.toNat) = some .cls := by rw [hword]; rfl
    refine ⟨_, (step_of_decodes hf hd).trans (by rw [exec_cls, State.settle_next_continued rfl]), ?_⟩
    rw [State.nextInputs_presents, State.presentIfDirty_presents, State.dirtyIf_dirty, Bool.or_true, if_pos rfl]
    have hframe : ((s.fetched.setMem (s.mem.cleared s.params)).dirtyIf true).frame =
        { width := 64, height := 32, bytes := List.replicate fbBytes 0#8 } := by
      rw [State.frame, ← Memory.readBytes_cleared s.mem s.params]
      rfl
    exact congrArg (· :: s.presents) hframe

end Sys2Proof.Machine
end

section
/-! SUPPORT. Reset, construction, load, the host's other operations and the accessors (10_state R36; 60_exceptions R320,
R339, R340; 70_reset R350, R351, R353). -/

namespace Sys2Proof.Machine

/-- What a placed image reads as (70_reset R350). -/
theorem read_imageCells (image : List Byte) (a c : Nat) :
    (imageCells a image).read c = if a ≤ c then (image[c - a]?).getD 0#8 else 0#8 := by
  induction image generalizing a with
  | nil => simp [imageCells, Memory.read, Memory.unlisted]
  | cons b bs ih =>
    have hread : (imageCells a (b :: bs)).read c = if a = c then b else (imageCells (a + 1) bs).read c := by
      rw [imageCells]
      split
      · next hb =>
        split
        · next hac => rw [ih, if_neg (by omega), hb]; rfl
        · rfl
      · rfl
    rw [hread, ih]
    by_cases hac : a = c
    · subst hac; simp
    · rw [if_neg hac]
      by_cases hlt : a + 1 ≤ c
      · rw [if_pos hlt, if_pos (by omega), show c - a = c - (a + 1) + 1 by omega, List.getElem?_cons_succ]
      · rw [if_neg hlt, if_neg (by omega)]

theorem Params.stackSlots_le {p : Params} (h : p.wf = true) : p.stackSlots ≤ 255 := by
  simp only [Params.wf, Params.slotsFitSp, Bool.and_eq_true, decide_eq_true_eq] at h
  obtain ⟨⟨⟨⟨-, hslots⟩, -⟩, -⟩, -⟩ := h
  exact hslots

theorem construct_sp {p : Params} (h : p.wf = true) (image : List Byte) :
    (State.construct p image).sp.toNat = p.stackSlots := by
  have hslots := Params.stackSlots_le h
  show (BitVec.ofNat 8 p.stackSlots).toNat = _
  rw [BitVec.toNat_ofNat]
  omega

theorem tick8_toNat (b : Byte) : (tick8 b).toNat = b.toNat - 1 := by
  unfold tick8
  split
  · next h => rw [h]; rfl
  · next h => exact toNat_sub_one (by bv_omega)

theorem State.load_eq_next {s : State} {image : List Byte} (hpos : 0 < image.length)
    (hle : image.length ≤ s.params.userSize) : s.load image = .next (s.setMem (s.mem.writeBytes userBase image)) := by
  rw [State.load, if_neg (by omega)]

theorem State.load_eq_fault {s : State} {image : List Byte}
    (h : image.length = 0 ∨ s.params.userSize < image.length) : s.load image = .fault .programTooLarge := by
  rw [State.load, if_pos h]

/-- The user region lies in memory, whatever the parameters. -/
theorem Params.userBase_add_le {p : Params} {len : Nat} (hpos : 0 < len) (hle : len ≤ p.userSize) :
    userBase + len ≤ memSize := by
  have hfb := p.fbBase_add_le
  unfold Params.userSize at hle
  omega

theorem wordOfBytes_toNat (hi lo : Byte) : (wordOfBytes hi lo).toNat = hi.toNat * 256 + lo.toNat := by
  have := hi.isLt
  have := lo.isLt
  rw [wordOfBytes, trunc16, BitVec.toNat_ofNat]
  omega

/-! ## The obligations -/

/-- Settles O49: the fields of the reset state, whose memory lists no byte. -/
theorem resetState : Obligations.ResetState := by
  unfold Obligations.ResetState
  exact ⟨rfl, rfl, by decide, rfl, rfl, rfl, rfl, fun _ => rfl, rfl⟩

/-- Settles O50: SP is the default STACK_SLOTS, the parameters the default ones, memory empty. -/
theorem resetMeetsInvariant : Obligations.ResetMeetsInvariant := by
  unfold Obligations.ResetMeetsInvariant
  exact ⟨by decide, rfl, by decide, Memory.wf_nil⟩

/-- Settles O51: SP fits in its 8 bits, and the cells of the image are in canonical form and read as the image. -/
theorem constructionMeetsInvariant : Obligations.ConstructionMeetsInvariant := by
  unfold Obligations.ConstructionMeetsInvariant
  intro p image hp himage
  have hlen : image.length = 0x200 := by simpa [reservedImageWf] using himage
  have hwf := (wf_imageCells image 0 (by rw [hlen]; decide)).1
  have hread : ∀ a, (State.construct p image).mem.read a = (image[a]?).getD 0#8 := fun a => by
    exact (read_imageCells image 0 a).trans (if_pos (Nat.zero_le a))
  refine ⟨⟨(construct_sp hp image).le, rfl, hp, hwf⟩, rfl, construct_sp hp image, rfl,
    fun a ha => ?_, fun a ha => ?_⟩
  · rw [hread, List.getElem?_eq_getElem (by omega), Option.getD_some]
  · rw [hread, List.getElem?_eq_none (by omega), Option.getD_none]

/-- Settles O52: the word at 0x200 is 0x0000, which does not decode. -/
theorem stepBeforeLoadIsIllegal : Obligations.StepBeforeLoadIsIllegal := by
  unfold Obligations.StepBeforeLoadIsIllegal
  exact step_of_illegal (s := State.reset) (by decide) (by decide)

/-- Settles O55: a tick writes DT and ST, each by `tick8`. -/
theorem tickDecrementsTimers : Obligations.TickDecrementsTimers := by
  unfold Obligations.TickDecrementsTimers
  exact fun s => ⟨rfl, tick8_toNat s.dt, tick8_toNat s.st⟩

/-- Settles O56: adding in 16 bits is adding modulo 65536. -/
theorem skipAdvancesPc : Obligations.SkipAdvancesPc := by
  unfold Obligations.SkipAdvancesPc
  intro s
  have hpc : s.pc + 2#16 = BitVec.ofNat 16 ((s.pc.toNat + 2) % 65536) := by
    apply BitVec.eq_of_toNat_eq
    simp [BitVec.toNat_add]
  rw [State.skip, hpc]
  rfl

/-- Settles O57: `load` checks the length alone, and an image that passes fits in memory. -/
theorem loadCopiesImage : Obligations.LoadCopiesImage := by
  unfold Obligations.LoadCopiesImage
  intro s image _
  refine ⟨⟨fun h => ?_, State.load_eq_fault⟩, fun hpos hle => ?_⟩
  · by_contra hok
    rw [not_or, not_lt] at hok
    rw [State.load_eq_next (Nat.pos_of_ne_zero hok.1) hok.2] at h
    cases h
  · have hfit := Params.userBase_add_le hpos hle
    refine ⟨_, State.load_eq_next hpos hle, rfl, fun k hk => ?_,
      fun a ha => Memory.read_writeBytes_outside _ _ _ _ ha⟩
    have hget : image[k]? = some image[k] := List.getElem?_eq_getElem hk
    exact (congrArg some (Memory.read_writeBytes_at hfit hget)).trans hget.symm

/-- Settles O58: each accessor's own test, with the word's value and `peek`'s check spelled out. -/
theorem accessorsReadState : Obligations.AccessorsReadState := by
  unfold Obligations.AccessorsReadState
  intro s
  refine ⟨fun a => ?byte, fun a ha => ?word, fun a ha => ?noWord, ?empty, fun hle => ?peek⟩
  case byte => simp only [State.byteOf, Nat.lt_succ_iff]
  case word => exact ⟨_, if_pos ha, wordOfBytes_toNat _ _⟩
  case noWord => exact if_neg (by omega)
  case empty => exact beq_iff_eq
  case peek =>
    unfold State.peek
    split
    · next h => rw [State.popFault_eq_none_iff] at h; rw [if_neg (by omega)]; rfl
    · next h => rw [State.popFault_eq_none_iff] at h; rw [if_pos (by omega)]

end Sys2Proof.Machine
end

section
/-! SUPPORT. The invariant of an instruction boundary (10_state R35): every effect keeps SP in range and memory in
canonical form, the end of a step clears `dirty`, and no move of the host breaks either. -/

namespace Sys2Proof.Machine

/-! ## What an effect keeps -/

/-- A push needs SP above 0 and a pop SP below STACK_SLOTS, so neither leaves the range (10_state R35.1). -/
theorem State.effect_sp_le {s : State} {i : Instr} (hcheck : s.ownCheck i = none)
    (h : s.sp.toNat ≤ s.params.stackSlots) : (s.effect i).sp.toNat ≤ s.params.stackSlots := by
  by_cases hret : i = .ret
  · subst hret
    have hlt : s.sp.toNat < s.params.stackSlots := State.popFault_eq_none_iff.mp hcheck
    show (s.sp + 1#8).toNat ≤ _
    bv_omega
  · by_cases hcall : ∃ nnn, i = .call nnn
    · obtain ⟨nnn, rfl⟩ := hcall
      obtain ⟨hne, -⟩ := State.pushFault_eq_none_iff.mp hcheck
      show (s.sp - 1#8).toNat ≤ _
      bv_omega
    · rw [State.effect_sp (fun nnn e => hcall ⟨nnn, e⟩) hret]
      exact h

theorem State.wf_effect {s : State} (h : s.mem.wf) (i : Instr) : (s.effect i).mem.wf := by
  cases i with
  | cls => exact Memory.wf_cleared h s.params
  | call nnn => exact State.wf_pushed h s.pc
  | drw x y n => exact (State.drawn_mem s x y n).symm ▸ State.wf_canvas x y n h
  | ldBVx x => exact State.wf_stored h _ _
  | storeRegs x => exact State.wf_stored h _ _
  | _ => rw [State.effect_mem_of_no_store rfl]; exact h

/-! ## What the host's moves keep -/

theorem State.Inv.of_step {s t : State} (hinv : s.Inv) (h : step s = .next t) : t.Inv := by
  obtain ⟨hsp, hdirty, hparams, hmem⟩ := hinv
  obtain ⟨i, -, -, hcheck, ⟨-, rfl⟩ | ⟨-, rfl⟩⟩ := step_eq_next_cases h
  · have hsp' := State.effect_sp_le hcheck hsp
    have hmem' := State.wf_effect (s := s.fetched) hmem i
    constructor
    · simpa using hsp'
    · simp
    · simpa using hparams
    · simpa using hmem'
  · exact ⟨hsp, hdirty, hparams, hmem⟩

theorem State.Inv.of_load {s t : State} (hinv : s.Inv) {image : List Byte} (h : s.load image = .next t) : t.Inv := by
  unfold State.load at h
  split at h
  · cases h
  · cases h
    exact ⟨hinv.spInRange, hinv.notDirty, hinv.paramsWf, Memory.wf_writeBytes image hinv.memWf userBase⟩

theorem State.Inv.of_hostStep {s t : State} (hinv : s.Inv) {op : HostOp} (h : hostStep op s = .next t) : t.Inv := by
  obtain ⟨hsp, hdirty, hparams, hmem⟩ := hinv
  cases op with
  | step inp => exact State.Inv.of_step (s := { s with inputs := [inp] }) ⟨hsp, hdirty, hparams, hmem⟩ h
  | tick => cases h; exact ⟨hsp, hdirty, hparams, hmem⟩
  | load image => exact State.Inv.of_load ⟨hsp, hdirty, hparams, hmem⟩ h
  | skip => cases h; exact ⟨hsp, hdirty, hparams, hmem⟩
  | key k down => cases h; exact ⟨hsp, hdirty, hparams, hmem⟩

/-- A move that answers no state leaves the old one (60_exceptions R307). -/
theorem State.Inv.afterOp {s : State} (hinv : s.Inv) (op : HostOp) : (s.afterOp (hostStep op s)).Inv := by
  cases h : hostStep op s with
  | next t => exact hinv.of_hostStep h
  | fault f => exact hinv
  | refused r => exact hinv

/-! ## The idle loop (60_exceptions R344) -/

/-- The state after a step that changes the model's own fields alone. -/
def State.idled (s : State) : State := ({ s with result := .continued } : State).nextInputs

/-- A step of the idle loop writes back the PC it had. -/
theorem step_of_idles {s : State} (hinv : s.Inv) (hidle : idles s) : step s = .next s.idled := by
  obtain ⟨hf, hd⟩ := hidle
  obtain ⟨-, -, hle⟩ := State.fetchable_iff.mp hf
  have htarget : addrWord (s.pc.setWidth 12) = s.pc := by
    apply BitVec.eq_of_toNat_eq
    simp only [addrWord, BitVec.toNat_setWidth]
    omega
  have hjump : s.fetched.setPc s.pc = { s with result := .continued } := rfl
  have hdirty : ({ s with result := .continued } : State).dirty = false := hinv.notDirty
  have hclean : ({ s with result := .continued } : State).presentIfDirty = { s with result := .continued } := by
    rw [State.presentIfDirty, hdirty]; rfl
  rw [step_of_decodes hf hd, exec_jp, htarget, hjump, State.settle_next_continued rfl, hclean]
  rfl

/-- A run goes on from the state its first step answers. -/
theorem run_succ_of_step {M : Host.Core} {s t : M.State} (h : M.step s = .next t) (k : Nat) :
    M.run (k + 1) s = M.run k t := by
  simp only [Host.Core.run, h]

/-! ## The obligations -/

/-- Settles O53: the effect keeps SP in range and memory in form, and the end of the step clears `dirty`. -/
theorem stepKeepsInvariant : Obligations.StepKeepsInvariant := by
  unfold Obligations.StepKeepsInvariant
  exact fun _ _ hinv h => hinv.of_step h

/-- Settles O54: by induction on the moves, each of which keeps the invariant. -/
theorem hostRunKeepsInvariant : Obligations.HostRunKeepsInvariant := by
  unfold Obligations.HostRunKeepsInvariant
  intro ops
  induction ops with
  | nil => exact fun _ hinv => hinv
  | cons op ops ih => exact fun s hinv => ih _ (hinv.afterOp op)

/-- Settles O59: by induction on the number of steps, each of which leaves an idling state that meets the invariant. -/
theorem idleLoopRunsForever : Obligations.IdleLoopRunsForever := by
  unfold Obligations.IdleLoopRunsForever
  intro k
  induction k with
  | zero => exact fun s _ _ => ⟨s, rfl, rfl, rfl, rfl, rfl, rfl, rfl, rfl, rfl, rfl, rfl⟩
  | succ k ih =>
    intro s hinv hidle
    have hstep := step_of_idles hinv hidle
    obtain ⟨t, hrun, hfields⟩ := ih s.idled (hinv.of_step hstep) hidle
    exact ⟨t, (run_succ_of_step (M := Sys2Proof.core) hstep k).trans hrun, hfields⟩

end Sys2Proof.Machine
end

section
/-! SUPPORT. A draw as a list of distinct pixels toggled one after the other (42_display R202): a pixel is flipped when it
is in the list, and a collision is a listed pixel that was on before the draw. -/

namespace Sys2Proof.Machine

/-! ## Pixels toggled in a row -/

/-- The pixels that sprite bits land on, those off screen left out. -/
def placedPixels (edge : Edge) (x0 y0 : Nat) (bits : List (Nat × Nat)) : List (Nat × Nat) :=
  bits.filterMap fun bit => placeBit edge x0 y0 bit.1 bit.2

/-- A list of pixels toggled in order. -/
def Canvas.toggleAll (p : Params) : Canvas → List (Nat × Nat) → Canvas
  | cv, [] => cv
  | cv, q :: rest => Canvas.toggleAll p (cv.toggle p q.1 q.2) rest

theorem placedPixels_cons_none {edge : Edge} {x0 y0 c r : Nat} (rest : List (Nat × Nat))
    (h : placeBit edge x0 y0 c r = none) :
    placedPixels edge x0 y0 ((c, r) :: rest) = placedPixels edge x0 y0 rest :=
  List.filterMap_cons_none (f := fun bit : Nat × Nat => placeBit edge x0 y0 bit.1 bit.2) h

theorem placedPixels_cons_some {edge : Edge} {x0 y0 c r : Nat} {q : Nat × Nat} (rest : List (Nat × Nat))
    (h : placeBit edge x0 y0 c r = some q) :
    placedPixels edge x0 y0 ((c, r) :: rest) = q :: placedPixels edge x0 y0 rest :=
  List.filterMap_cons_some (f := fun bit : Nat × Nat => placeBit edge x0 y0 bit.1 bit.2) h

/-- Drawing bits is toggling the pixels they land on. -/
theorem Canvas.drawBits_eq_toggleAll (p : Params) (x0 y0 : Nat) (bits : List (Nat × Nat)) (cv : Canvas) :
    Canvas.drawBits p x0 y0 cv bits = cv.toggleAll p (placedPixels p.drawEdge x0 y0 bits) := by
  induction bits generalizing cv with
  | nil => rfl
  | cons bit rest ih =>
    obtain ⟨c, r⟩ := bit
    cases hp : placeBit p.drawEdge x0 y0 c r with
    | none => rw [Canvas.drawBits_none p x0 y0 cv rest hp, ih, placedPixels_cons_none rest hp]
    | some q => rw [Canvas.drawBits_some p x0 y0 cv rest hp, ih, placedPixels_cons_some rest hp, Canvas.toggleAll]

/-- Every pixel of the list lies on screen. -/
def OnScreen (pixels : List (Nat × Nat)) : Prop := ∀ q ∈ pixels, q.1 < fbWidth ∧ q.2 < fbHeight

theorem onScreen_placedPixels (edge : Edge) (x0 y0 : Nat) (bits : List (Nat × Nat)) :
    OnScreen (placedPixels edge x0 y0 bits) := by
  intro q hq
  obtain ⟨bit, -, hplace⟩ := List.mem_filterMap.mp hq
  exact placeBit_in_screen hplace

/-- Toggling distinct pixels flips each of them and no other. -/
theorem Canvas.pixel_toggleAll (p : Params) {pixels : List (Nat × Nat)} (hon : OnScreen pixels) (hnd : pixels.Nodup)
    (cv : Canvas) {qx : Nat} (hq : qx < fbWidth) (qy : Nat) :
    (cv.toggleAll p pixels).mem.pixel p qx qy = (cv.mem.pixel p qx qy ^^ decide ((qx, qy) ∈ pixels)) := by
  induction pixels generalizing cv with
  | nil => simp [Canvas.toggleAll]
  | cons q rest ih =>
    obtain ⟨⟨hx, hy⟩, hon'⟩ := List.forall_mem_cons.mp hon
    obtain ⟨hfresh, hnd'⟩ := List.nodup_cons.mp hnd
    rw [Canvas.toggleAll, ih hon' hnd', Canvas.pixel_toggle p cv hx hy hq]
    by_cases heq : (qx, qy) = q
    · subst heq; simp [hfresh]
    · have hne : ¬ (qx = q.1 ∧ qy = q.2) := fun h => heq (Prod.ext h.1 h.2)
      simp [heq, hne]

/-- Toggling distinct pixels collides exactly where one of them was on before the first toggle. -/
theorem Canvas.hit_toggleAll_iff (p : Params) {pixels : List (Nat × Nat)} (hon : OnScreen pixels) (hnd : pixels.Nodup)
    (cv : Canvas) : (cv.toggleAll p pixels).hit = true ↔
      cv.hit = true ∨ ∃ q ∈ pixels, cv.mem.pixel p q.1 q.2 = true := by
  induction pixels generalizing cv with
  | nil => simp [Canvas.toggleAll]
  | cons q rest ih =>
    obtain ⟨⟨hx, hy⟩, hon'⟩ := List.forall_mem_cons.mp hon
    obtain ⟨hfresh, hnd'⟩ := List.nodup_cons.mp hnd
    have hrest : ∀ q' ∈ rest, (cv.toggle p q.1 q.2).mem.pixel p q'.1 q'.2 = cv.mem.pixel p q'.1 q'.2 := by
      intro q' hq'
      have hne : ¬ (q'.1 = q.1 ∧ q'.2 = q.2) := fun h => hfresh (Prod.ext h.1 h.2 ▸ hq')
      rw [Canvas.pixel_toggle p cv hx hy (hon' q' hq').1, decide_eq_false hne, Bool.xor_false]
    have hexists : (∃ q' ∈ rest, (cv.toggle p q.1 q.2).mem.pixel p q'.1 q'.2 = true) ↔
        ∃ q' ∈ rest, cv.mem.pixel p q'.1 q'.2 = true :=
      exists_congr fun q' => and_congr_right fun hq' => by rw [hrest q' hq']
    rw [Canvas.toggleAll, ih hon' hnd', hexists, Canvas.hit_toggle, Bool.or_eq_true, or_assoc]
    simp only [List.mem_cons, exists_eq_or_imp]

/-! ## The bits of a sprite land on distinct pixels -/

/-- A sprite's bits: at most 8 columns, and fewer rows than the screen has. -/
def FitsSprite (bits : List (Nat × Nat)) : Prop := ∀ bit ∈ bits, bit.1 < 8 ∧ bit.2 < fbHeight

/-- Where a bit lands (42_display R202; decision D15). -/
theorem placeBit_eq_some_iff {edge : Edge} {x0 y0 c r : Nat} {q : Nat × Nat} : placeBit edge x0 y0 c r = some q ↔
    match edge with
    | .wrap => (x0 + c) % 64 = q.1 ∧ (y0 + r) % 32 = q.2
    | .clip => (x0 + c < 64 ∧ y0 + r < 32) ∧ x0 + c = q.1 ∧ y0 + r = q.2 := by
  cases edge with
  | wrap => simp [placeBit, fbWidth, fbHeight, Prod.ext_iff]
  | clip => rw [placeBit, Option.ite_none_right_eq_some, Option.some.injEq, Prod.ext_iff]; rfl

/-- Two bits of a sprite that land on one pixel are one bit: a sprite is smaller than the screen. -/
theorem placeBit_inj {edge : Edge} {x0 y0 : Nat} {a b q : Nat × Nat} (ha : a.1 < 8 ∧ a.2 < fbHeight)
    (hb : b.1 < 8 ∧ b.2 < fbHeight) (hpa : placeBit edge x0 y0 a.1 a.2 = some q)
    (hpb : placeBit edge x0 y0 b.1 b.2 = some q) : a = b := by
  rw [placeBit_eq_some_iff] at hpa hpb
  unfold fbHeight at ha hb
  cases edge with
  | wrap => apply Prod.ext <;> dsimp only at hpa hpb <;> omega
  | clip => apply Prod.ext <;> dsimp only at hpa hpb <;> omega

theorem nodup_placedPixels {bits : List (Nat × Nat)} (hfits : FitsSprite bits) (hnd : bits.Nodup) (edge : Edge)
    (x0 y0 : Nat) : (placedPixels edge x0 y0 bits).Nodup := by
  refine List.pairwise_filterMap.mpr (hnd.imp_of_mem fun {a b} ha hb hne q hq q' hq' heq => hne ?_)
  subst heq
  exact placeBit_inj (hfits a ha) (hfits b hb) hq hq'

theorem nodup_setColumns (b : Byte) : (setColumns b).Nodup := List.nodup_range.filter _

/-- The set bits of one row. -/
def rowBits (r : Nat) (b : Byte) : List (Nat × Nat) := (setColumns b).map fun c => (c, r)

theorem mem_rowBits {r : Nat} {b : Byte} {bit : Nat × Nat} :
    bit ∈ rowBits r b ↔ bit.1 < 8 ∧ b.getLsbD (7 - bit.1) = true ∧ bit.2 = r := by
  obtain ⟨c, r'⟩ := bit
  simp only [rowBits, setColumns, List.mem_map, List.mem_filter, List.mem_range, Prod.mk.injEq]
  constructor
  · rintro ⟨c', ⟨hc, hset⟩, rfl, rfl⟩; exact ⟨hc, hset, rfl⟩
  · rintro ⟨hc, hset, rfl⟩; exact ⟨c, ⟨hc, hset⟩, rfl, rfl⟩

theorem nodup_rowBits (r : Nat) (b : Byte) : (rowBits r b).Nodup :=
  (nodup_setColumns b).map fun _ _ h => (Prod.mk.inj h).1

theorem nodup_spriteBits (bs : List Byte) (r : Nat) : (spriteBits r bs).Nodup := by
  induction bs generalizing r with
  | nil => exact List.nodup_nil
  | cons b bs ih =>
    refine List.nodup_append'.mpr ⟨nodup_rowBits r b, ih (r + 1), fun bit hrow hrest => ?_⟩
    obtain ⟨-, -, hr⟩ := mem_rowBits.mp hrow
    obtain ⟨-, hle, -⟩ := (mem_spriteBits bs (r + 1) bit.1 bit.2).mp hrest
    omega

/-! ## The draw of a state -/

variable (s : State) (x y : Reg) (n : Fin 16)

/-- The pixels the sprite of `dxyn` covers. -/
def State.spritePixels : List (Nat × Nat) :=
  placedPixels s.params.drawEdge ((s.getV x).toNat % 64) ((s.getV y).toNat % 32) (spriteBits 0 (s.spriteBytes n))

/-- The set bits of the sprite in memory. -/
theorem State.mem_spriteBits_iff {c r : Nat} : (c, r) ∈ spriteBits 0 (s.spriteBytes n) ↔
    c < 8 ∧ r < n.val ∧ (s.mem.read (s.ea + r)).getLsbD (7 - c) = true := by
  rw [mem_spriteBits, Nat.sub_zero, State.spriteBytes, Memory.getElem?_readBytes]
  by_cases hr : r < n.val <;> simp [hr]

/-- On screen, the list holds exactly the pixels the specification calls covered. -/
theorem State.mem_spritePixels_iff {px py : Nat} (hx : px < 64) (hy : py < 32) :
    (px, py) ∈ s.spritePixels x y n ↔ s.spriteCovers x y n px py := by
  simp only [State.spritePixels, placedPixels, List.mem_filterMap, Prod.exists, State.mem_spriteBits_iff,
    placeBit_eq_some_iff, State.spriteCovers]
  rw [exists_comm]
  refine exists_congr fun r => exists_congr fun c => ?_
  cases s.params.drawEdge with
  | wrap => dsimp only; tauto
  | clip =>
    dsimp only
    constructor
    · rintro ⟨⟨hc, hr, hset⟩, -, hpx, hpy⟩; exact ⟨hr, hc, hset, hpx, hpy⟩
    · rintro ⟨hr, hc, hset, hpx, hpy⟩; exact ⟨⟨hc, hr, hset⟩, by omega, hpx, hpy⟩

theorem State.nodup_spritePixels : (s.spritePixels x y n).Nodup := by
  refine nodup_placedPixels (fun bit hbit => ?_) (nodup_spriteBits _ 0) _ _ _
  obtain ⟨hc, hr, -⟩ := (s.mem_spriteBits_iff n).mp hbit
  exact ⟨hc, Nat.lt_trans hr (Nat.lt_trans n.isLt (by decide))⟩

theorem State.onScreen_spritePixels : OnScreen (s.spritePixels x y n) := onScreen_placedPixels _ _ _ _

theorem State.canvas_eq_toggleAll :
    s.canvas x y n = Canvas.toggleAll s.params { mem := s.mem, hit := false } (s.spritePixels x y n) :=
  Canvas.drawBits_eq_toggleAll _ _ _ _ _

/-- A draw flips the covered pixels and no other (42_display R202). -/
theorem State.pixel_canvas {px : Nat} (hx : px < 64) (py : Nat) : (s.canvas x y n).mem.pixel s.params px py =
    (s.mem.pixel s.params px py ^^ decide ((px, py) ∈ s.spritePixels x y n)) := by
  rw [State.canvas_eq_toggleAll]
  exact Canvas.pixel_toggleAll s.params (s.onScreen_spritePixels x y n) (s.nodup_spritePixels x y n) _ hx py

/-- A draw collides exactly where a covered pixel was on (42_display R202; decision D14). -/
theorem State.hit_canvas_iff : (s.canvas x y n).hit = true ↔
    ∃ px py, px < 64 ∧ py < 32 ∧ s.spriteCovers x y n px py ∧ s.mem.pixel s.params px py = true := by
  rw [State.canvas_eq_toggleAll,
    Canvas.hit_toggleAll_iff s.params (s.onScreen_spritePixels x y n) (s.nodup_spritePixels x y n)]
  simp only [Bool.false_eq_true, false_or, Prod.exists]
  refine exists_congr fun px => exists_congr fun py =>
    ⟨fun ⟨hmem, hpixel⟩ => ?_, fun ⟨hx, hy, hcov, hpixel⟩ => ?_⟩
  · obtain ⟨hx, hy⟩ := s.onScreen_spritePixels x y n (px, py) hmem
    exact ⟨hx, hy, (s.mem_spritePixels_iff x y n hx hy).mp hmem, hpixel⟩
  · exact ⟨(s.mem_spritePixels_iff x y n hx hy).mpr hcov, hpixel⟩

/-! ## The obligation -/

theorem exec_drw {s : State} {n : Fin 16} (h : s.ea + n.val ≤ memSize) (x y : Reg) :
    exec (.drw x y n) s = .next (s.drawn x y n) :=
  exec_of_check (i := .drw x y n) (State.rangeFault_eq_none_iff.mpr h)

theorem State.drawn_vF (h : s.params.drawCollision = true) :
    (s.drawn x y n).v[15] = boolByte (s.canvas x y n).hit := by
  simp [State.drawn_v, h]

theorem boolByte_eq_zero_or_one (c : Bool) : boolByte c = 0#8 ∨ boolByte c = 1#8 := by cases c <;> decide

/-- Settles O29: the sprite's bits land on distinct pixels, so each covered pixel is toggled once, from the value it had
before the draw. -/
theorem drawFlipsCoveredPixels : Obligations.DrawFlipsCoveredPixels := by
  unfold Obligations.DrawFlipsCoveredPixels
  intro x y n s h
  refine ⟨_, exec_drw h x y, ?fields, fun px py hx hy => ?pixels, fun a ha => ?frame, fun r hr => ?registers,
    fun hoff => ?noFlag, fun hon => ?flagValues, fun hon => ?flag⟩
  case fields => rw [State.drawn_eq]
  case pixels =>
    rw [State.drawn_mem, State.pixel_canvas s x y n hx, ← State.mem_spritePixels_iff s x y n hx hy]
    by_cases hcov : (px, py) ∈ s.spritePixels x y n <;> cases s.mem.pixel s.params px py <;> simp [hcov]
  case frame => rw [State.drawn_mem]; exact State.read_canvas_outside s x y n ha
  case registers => exact State.getV_drawn_other s x y n hr
  case noFlag => simp [State.drawn_v, hoff]
  case flagValues => rw [State.drawn_vF s x y n hon]; exact boolByte_eq_zero_or_one _
  case flag => rw [State.drawn_vF s x y n hon, boolByte_eq_one_iff, State.hit_canvas_iff]

end Sys2Proof.Machine
end

section
/-! SUPPORT. The byte algorithm (42_display R203): each of its rows flips the pixels that the bits of that row land on, so
row by row it leaves the memory of the pixel rule. -/

namespace Sys2Proof.Machine

/-! ## Memory is its pixels and the bytes outside the framebuffer -/

/-- Two memories in canonical form with the same pixels and the same bytes outside the framebuffer are equal. -/
theorem Memory.eq_of_pixels {m m' : Memory} (p : Params) (hm : m.wf) (hm' : m'.wf)
    (hout : ∀ a, a < p.fbBase ∨ p.fbBase + fbBytes ≤ a → m.read a = m'.read a)
    (hpix : ∀ px py, px < 64 → py < 32 → m.pixel p px py = m'.pixel p px py) : m = m' := by
  refine Memory.eq_of_read hm hm' fun a => ?_
  by_cases ha : a < p.fbBase ∨ p.fbBase + fbBytes ≤ a
  · exact hout a ha
  · unfold fbBytes at ha
    refine BitVec.eq_of_getLsbD_eq fun j hj => ?_
    have haddr : p.fbAddr ((a - p.fbBase) % 8 * 8 + (7 - j)) ((a - p.fbBase) / 8) = a := by
      unfold Params.fbAddr fbStride; omega
    have hbit : fbBit ((a - p.fbBase) % 8 * 8 + (7 - j)) = j := by unfold fbBit; omega
    have h := hpix ((a - p.fbBase) % 8 * 8 + (7 - j)) ((a - p.fbBase) / 8) (by omega) (by omega)
    unfold Memory.pixel at h
    rwa [haddr, hbit] at h

/-! ## One byte composed -/

/-- A byte of the framebuffer XORed with another flips the pixels of its set bits. -/
theorem Memory.pixel_xorByte (m : Memory) (p : Params) {k row qx qy : Nat} (hk : k < 8) (hrow : row < 32)
    (hx : qx < 64) (w : Byte) : (m.xorByte (p.fbBase + fbStride * row + k) w).pixel p qx qy =
      (m.pixel p qx qy ^^ (decide (qx / 8 = k ∧ qy = row) && w.getLsbD (fbBit qx))) := by
  have hin := p.fbBase_add_le
  unfold fbBytes at hin
  have haddr : p.fbAddr qx qy = p.fbBase + fbStride * row + k ↔ qx / 8 = k ∧ qy = row := by
    unfold Params.fbAddr fbStride; omega
  unfold Memory.pixel Memory.xorByte
  rw [Memory.read_write _ (by unfold fbStride; omega)]
  by_cases h : qx / 8 = k ∧ qy = row
  · rw [if_pos (haddr.mpr h), BitVec.getLsbD_xor, haddr.mpr h, decide_eq_true h, Bool.true_and]
  · rw [if_neg (mt haddr.mp h), decide_eq_false h, Bool.false_and, Bool.xor_false]

/-- A byte of the framebuffer XORed with another leaves the bytes outside the framebuffer. -/
theorem Memory.read_xorByte_outside (m : Memory) (p : Params) {k row a : Nat} (hk : k < 8) (hrow : row < 32) (w : Byte)
    (ha : a < p.fbBase ∨ p.fbBase + fbBytes ≤ a) : (m.xorByte (p.fbBase + fbStride * row + k) w).read a = m.read a :=
  Memory.read_write_other _ _ (by unfold fbBytes at ha; unfold fbStride; omega)

theorem Memory.wf_xorByte {m : Memory} (h : m.wf) (a : Nat) (w : Byte) : (m.xorByte a w).wf := Memory.wf_write h _ _

theorem leftPart_eq (b : Byte) (k : Nat) : leftPart b k = b >>> k := by
  apply BitVec.eq_of_toNat_eq
  have hle : b.toNat / 2 ^ k ≤ b.toNat := Nat.div_le_self _ _
  rw [leftPart, trunc8, BitVec.toNat_ofNat, BitVec.toNat_ushiftRight, Nat.shiftRight_eq_div_pow,
    Nat.mod_eq_of_lt (Nat.lt_of_le_of_lt hle b.isLt)]

theorem rightPart_eq (b : Byte) (k : Nat) : rightPart b k = b <<< (8 - k) := by
  apply BitVec.eq_of_toNat_eq
  rw [rightPart, trunc8, BitVec.toNat_ofNat, BitVec.toNat_shiftLeft, Nat.shiftLeft_eq]

/-- The bit of a sprite byte at column `x0` that the left framebuffer byte puts on column `qx`. -/
def leftBit (b : Byte) (x0 qx : Nat) : Bool := decide (qx / 8 = x0 / 8 ∧ x0 ≤ qx) && b.getLsbD (7 - (qx - x0))

/-- The bit that the right framebuffer byte, the first of the row after the last, puts on column `qx`. -/
def rightBit (b : Byte) (x0 qx : Nat) : Bool :=
  decide (qx / 8 = (x0 / 8 + 1) % 8 ∧ qx % 8 < x0 % 8) && b.getLsbD (x0 % 8 - 1 - qx % 8)

theorem leftPart_getLsbD (b : Byte) {x0 qx : Nat} (h : qx / 8 = x0 / 8) :
    (leftPart b (x0 % 8)).getLsbD (fbBit qx) = leftBit b x0 qx := by
  rw [leftPart_eq, BitVec.getLsbD_ushiftRight, leftBit, fbBit]
  by_cases hle : x0 ≤ qx
  · rw [decide_eq_true ⟨h, hle⟩, Bool.true_and]; congr 1; omega
  · rw [decide_eq_false (fun h' => hle h'.2), Bool.false_and]; exact BitVec.getLsbD_of_ge _ _ (by omega)

theorem rightPart_getLsbD (b : Byte) {x0 qx : Nat} (h : qx / 8 = (x0 / 8 + 1) % 8) :
    (rightPart b (x0 % 8)).getLsbD (fbBit qx) = rightBit b x0 qx := by
  rw [rightPart_eq, BitVec.getLsbD_shiftLeft, rightBit, fbBit, decide_eq_true (by omega : 7 - qx % 8 < 8),
    Bool.true_and]
  by_cases hlt : qx % 8 < x0 % 8
  · have hin : ¬ 7 - qx % 8 < 8 - x0 % 8 := by omega
    have hcol : 7 - qx % 8 - (8 - x0 % 8) = x0 % 8 - 1 - qx % 8 := by omega
    rw [decide_eq_false hin, hcol, decide_eq_true (And.intro h hlt), Bool.not_false]
  · have hin : 7 - qx % 8 < 8 - x0 % 8 := by omega
    rw [decide_eq_true hin, decide_eq_false (not_and_of_not_right _ hlt), Bool.not_true, Bool.false_and, Bool.false_and]

/-! ## One row composed -/

/-- Whether one row of the byte algorithm flips a pixel (42_display R203). -/
def rowFlips (edge : Edge) (x0 y0 r : Nat) (b : Byte) (qx qy : Nat) : Bool :=
  match edge with
  | .wrap => decide (qy = (y0 + r) % 32) && (leftBit b x0 qx ^^ rightBit b x0 qx)
  | .clip => decide (qy = y0 + r) && (leftBit b x0 qx ^^ (decide (x0 / 8 ≠ 7) && rightBit b x0 qx))

variable (m : Memory) (p : Params) {x0 qx : Nat}

/-- The left byte of a row. -/
theorem Memory.pixel_xorLeft (hx0 : x0 < 64) (hqx : qx < 64) {row : Nat} (hrow : row < 32) (b : Byte) (qy : Nat) :
    (m.xorByte (p.fbBase + fbStride * row + x0 / 8) (leftPart b (x0 % 8))).pixel p qx qy =
      (m.pixel p qx qy ^^ (decide (qy = row) && leftBit b x0 qx)) := by
  rw [Memory.pixel_xorByte m p (by omega) hrow hqx]
  by_cases h : qx / 8 = x0 / 8
  · rw [leftPart_getLsbD b h]; simp [h]
  · simp [leftBit, h]

/-- The right byte of a row; an aligned row has none, and none of its bits would be set. -/
theorem Memory.pixel_xorRight (hqx : qx < 64) {row : Nat} (hrow : row < 32) (b : Byte) (qy : Nat) :
    (if x0 % 8 = 0 then m
      else m.xorByte (p.fbBase + fbStride * row + (x0 / 8 + 1) % 8) (rightPart b (x0 % 8))).pixel p qx qy =
      (m.pixel p qx qy ^^ (decide (qy = row) && rightBit b x0 qx)) := by
  split
  · next hzero => simp [rightBit, hzero]
  · rw [Memory.pixel_xorByte m p (by omega) hrow hqx]
    by_cases h : qx / 8 = (x0 / 8 + 1) % 8
    · rw [rightPart_getLsbD b h]; simp [h]
    · simp [rightBit, h]

/-- A row of the byte algorithm flips the pixels `rowFlips` says. -/
theorem pixel_composeRow (hx0 : x0 < 64) (hqx : qx < 64) {qy : Nat} (hqy : qy < 32) (y0 r : Nat) (b : Byte) :
    (composeRow p x0 y0 r b m).pixel p qx qy = (m.pixel p qx qy ^^ rowFlips p.drawEdge x0 y0 r b qx qy) := by
  have hrow : (y0 + r) % 32 < 32 := Nat.mod_lt _ (by decide)
  have hleft := Memory.pixel_xorLeft m p hx0 hqx hrow b qy
  have hboth := (Memory.pixel_xorRight (x0 := x0)
    (m.xorByte (p.fbBase + fbStride * ((y0 + r) % 32) + x0 / 8) (leftPart b (x0 % 8))) p hqx hrow b qy).trans
    (congrArg (· ^^ (decide (qy = (y0 + r) % 32) && rightBit b x0 qx)) hleft)
  rw [Bool.xor_assoc, ← Bool.and_xor_distrib_left] at hboth
  cases hedge : p.drawEdge with
  | wrap => simpa only [composeRow, hedge, rowFlips, fbHeight] using hboth
  | clip =>
    by_cases hy : 32 ≤ y0 + r
    · have hne : ¬ qy = y0 + r := by omega
      simp [composeRow, hedge, rowFlips, fbHeight, hy, hne]
    · have hmod : (y0 + r) % 32 = y0 + r := Nat.mod_eq_of_lt (not_le.mp hy)
      rw [hmod] at hleft hboth
      by_cases hq : x0 / 8 = 7
      · simpa only [composeRow, hedge, rowFlips, fbHeight, hy, hq, hmod, ↓reduceIte, ne_eq,
          not_true_eq_false, decide_false, Bool.false_and, Bool.xor_false] using hleft
      · simpa only [composeRow, hedge, rowFlips, fbHeight, hy, hq, hmod, ↓reduceIte, ne_eq,
          not_false_eq_true, decide_true, Bool.true_and] using hboth

/-- What every XOR of a framebuffer byte keeps, a row of the byte algorithm keeps. -/
theorem composeRow_induction {motive : Memory → Prop} (hx0 : x0 < 64) (y0 r : Nat) (b : Byte)
    (step : ∀ m k row w, k < 8 → row < 32 → motive m → motive (m.xorByte (p.fbBase + fbStride * row + k) w))
    (h : motive m) : motive (composeRow p x0 y0 r b m) := by
  have hrow : (y0 + r) % fbHeight < 32 := Nat.mod_lt _ (by decide)
  have hfirst := step m (x0 / 8) _ (leftPart b (x0 % 8)) (by omega) hrow h
  have hboth := step _ ((x0 / 8 + 1) % 8) _ (rightPart b (x0 % 8)) (by omega) hrow hfirst
  dsimp only [composeRow]
  repeat' split
  all_goals assumption

/-! ## The columns a row flips -/

theorem leftBit_iff {b : Byte} : leftBit b x0 qx = true ↔
    ∃ c, c < 8 ∧ b.getLsbD (7 - c) = true ∧ x0 + c = qx ∧ qx / 8 = x0 / 8 := by
  rw [leftBit, Bool.and_eq_true, decide_eq_true_eq]
  constructor
  · rintro ⟨⟨hbyte, hle⟩, hset⟩; exact ⟨qx - x0, by omega, hset, by omega, hbyte⟩
  · rintro ⟨c, -, hset, rfl, hbyte⟩; exact ⟨⟨hbyte, by omega⟩, by rwa [Nat.add_sub_cancel_left]⟩

theorem rightBit_iff (hqx : qx < 64) {b : Byte} : rightBit b x0 qx = true ↔
    ∃ c, c < 8 ∧ b.getLsbD (7 - c) = true ∧ (x0 + c) % 64 = qx ∧ qx / 8 = (x0 / 8 + 1) % 8 := by
  rw [rightBit, Bool.and_eq_true, decide_eq_true_eq]
  constructor
  · rintro ⟨⟨hbyte, hlt⟩, hset⟩
    have hcol : 7 - (qx % 8 + 8 - x0 % 8) = x0 % 8 - 1 - qx % 8 := by omega
    exact ⟨qx % 8 + 8 - x0 % 8, by omega, by rwa [hcol], by omega, hbyte⟩
  · rintro ⟨c, hc, hset, hplace, hbyte⟩
    have hcol : x0 % 8 - 1 - qx % 8 = 7 - c := by omega
    exact ⟨⟨hbyte, by omega⟩, by rwa [hcol]⟩

/-- The two bytes of a row are two, so no pixel is flipped by both. -/
theorem rightBit_of_leftBit {b : Byte} (h : leftBit b x0 qx = true) : rightBit b x0 qx = false := by
  obtain ⟨c, -, -, -, hbyte⟩ := leftBit_iff.mp h
  have hne : ¬ (qx / 8 = (x0 / 8 + 1) % 8 ∧ qx % 8 < x0 % 8) := by omega
  rw [rightBit, decide_eq_false hne, Bool.false_and]

theorem xor_eq_true_iff_or {a b : Bool} (h : a = true → b = false) : (a ^^ b) = true ↔ a = true ∨ b = true := by
  cases a <;> cases b <;> simp_all

/-- Under `Wrap` a row flips the columns its set bits reach modulo 64. -/
theorem rowFlips_wrap_iff (hx0 : x0 < 64) (hqx : qx < 64) {y0 r qy : Nat} {b : Byte} :
    rowFlips .wrap x0 y0 r b qx qy = true ↔
      ∃ c, (c < 8 ∧ b.getLsbD (7 - c) = true) ∧ (x0 + c) % 64 = qx ∧ (y0 + r) % 32 = qy := by
  rw [rowFlips, Bool.and_eq_true, decide_eq_true_eq, xor_eq_true_iff_or rightBit_of_leftBit, leftBit_iff,
    rightBit_iff hqx]
  constructor
  · rintro ⟨rfl, ⟨c, hc, hset, hx, -⟩ | ⟨c, hc, hset, hx, -⟩⟩
    · exact ⟨c, ⟨hc, hset⟩, by omega, rfl⟩
    · exact ⟨c, ⟨hc, hset⟩, hx, rfl⟩
  · rintro ⟨c, ⟨hc, hset⟩, hx, hy⟩
    refine ⟨hy.symm, ?_⟩
    by_cases hbyte : qx / 8 = x0 / 8
    · exact .inl ⟨c, hc, hset, by omega, hbyte⟩
    · exact .inr ⟨c, hc, hset, hx, by omega⟩

/-- Under `Clip` a row flips the columns its set bits reach on screen: the last byte of a row has none to its right. -/
theorem rowFlips_clip_iff (hx0 : x0 < 64) (hqx : qx < 64) {y0 r qy : Nat} {b : Byte} :
    rowFlips .clip x0 y0 r b qx qy = true ↔
      ∃ c, (c < 8 ∧ b.getLsbD (7 - c) = true) ∧ x0 + c = qx ∧ y0 + r = qy := by
  have hright : (decide (x0 / 8 ≠ 7) && rightBit b x0 qx) = true ↔
      ∃ c, c < 8 ∧ b.getLsbD (7 - c) = true ∧ x0 + c = qx ∧ qx / 8 ≠ x0 / 8 := by
    rw [Bool.and_eq_true, decide_eq_true_eq, rightBit_iff hqx]
    constructor
    · rintro ⟨hq, c, hc, hset, hx, hbyte⟩; exact ⟨c, hc, hset, by omega, by omega⟩
    · rintro ⟨c, hc, hset, hx, hbyte⟩; exact ⟨by omega, c, hc, hset, by omega, by omega⟩
  rw [rowFlips, Bool.and_eq_true, decide_eq_true_eq,
    xor_eq_true_iff_or (fun h => by rw [rightBit_of_leftBit h, Bool.and_false]), leftBit_iff, hright]
  constructor
  · rintro ⟨rfl, ⟨c, hc, hset, hx, -⟩ | ⟨c, hc, hset, hx, -⟩⟩
    · exact ⟨c, ⟨hc, hset⟩, hx, rfl⟩
    · exact ⟨c, ⟨hc, hset⟩, hx, rfl⟩
  · rintro ⟨c, ⟨hc, hset⟩, hx, hy⟩
    refine ⟨hy.symm, ?_⟩
    by_cases hbyte : qx / 8 = x0 / 8
    · exact .inl ⟨c, hc, hset, hx, hbyte⟩
    · exact .inr ⟨c, hc, hset, hx, hbyte⟩

/-- A row flips exactly the pixels its set bits land on. -/
theorem rowFlips_iff (hx0 : x0 < 64) (hqx : qx < 64) {qy : Nat} (hqy : qy < 32) {edge : Edge} {y0 r : Nat} {b : Byte} :
    rowFlips edge x0 y0 r b qx qy = true ↔ (qx, qy) ∈ placedPixels edge x0 y0 (rowBits r b) := by
  have hmem : (qx, qy) ∈ placedPixels edge x0 y0 (rowBits r b) ↔
      ∃ c, (c < 8 ∧ b.getLsbD (7 - c) = true) ∧ placeBit edge x0 y0 c r = some (qx, qy) := by
    simp [placedPixels, mem_rowBits]
  rw [hmem]
  simp only [placeBit_eq_some_iff]
  cases edge with
  | wrap => exact rowFlips_wrap_iff hx0 hqx
  | clip =>
    rw [rowFlips_clip_iff hx0 hqx]
    refine exists_congr fun c => and_congr_right fun _ => ⟨fun hplace => ⟨?_, hplace⟩, fun hplace => hplace.2⟩
    omega

/-! ## The byte algorithm is the pixel rule -/

theorem Canvas.drawBits_append (p : Params) (x0 y0 : Nat) (l l' : List (Nat × Nat)) (cv : Canvas) :
    Canvas.drawBits p x0 y0 cv (l ++ l') = Canvas.drawBits p x0 y0 (Canvas.drawBits p x0 y0 cv l) l' := by
  induction l generalizing cv with
  | nil => rfl
  | cons bit rest ih =>
    obtain ⟨c, r⟩ := bit
    cases hp : placeBit p.drawEdge x0 y0 c r with
    | none => rw [List.cons_append, Canvas.drawBits_none p x0 y0 cv _ hp, Canvas.drawBits_none p x0 y0 cv _ hp, ih]
    | some q => rw [List.cons_append, Canvas.drawBits_some p x0 y0 cv _ hp, Canvas.drawBits_some p x0 y0 cv _ hp, ih]

/-- One row of bytes leaves the memory that drawing the row's bits leaves. -/
theorem composeRow_eq_drawBits (hx0 : x0 < 64) (y0 : Nat) {r : Nat} (hr : r < fbHeight) (b : Byte) {cv : Canvas}
    (hwf : cv.mem.wf) : composeRow p x0 y0 r b cv.mem = (Canvas.drawBits p x0 y0 cv (rowBits r b)).mem := by
  have hwfRow : (composeRow p x0 y0 r b cv.mem).wf :=
    composeRow_induction cv.mem p hx0 y0 r b (fun m k row w _ _ hm => Memory.wf_xorByte hm _ w) hwf
  refine Memory.eq_of_pixels p hwfRow (Canvas.wf_drawBits p x0 y0 _ hwf) (fun a ha => ?_) fun px py hx hy => ?_
  · rw [Canvas.read_drawBits_outside p x0 y0 _ cv ha]
    exact composeRow_induction (motive := fun m => m.read a = cv.mem.read a) cv.mem p hx0 y0 r b
      (fun m k row w hk hrow hm => (Memory.read_xorByte_outside m p hk hrow w ha).trans hm) rfl
  · have hnd : (placedPixels p.drawEdge x0 y0 (rowBits r b)).Nodup  :=
      nodup_placedPixels (fun bit hbit => by
        obtain ⟨hc, -, hrow⟩ := mem_rowBits.mp hbit
        exact ⟨hc, hrow ▸ hr⟩) (nodup_rowBits r b) _ _ _
    rw [pixel_composeRow cv.mem p hx0 hx hy, Canvas.drawBits_eq_toggleAll,
      Canvas.pixel_toggleAll p (onScreen_placedPixels _ _ _ _) hnd cv hx]
    congr 1
    rw [Bool.eq_iff_iff, decide_eq_true_eq, rowFlips_iff hx0 hx hy]

/-- All rows: the byte algorithm and the pixel rule leave the same memory (42_display R203). -/
theorem composeRows_eq_drawBits (hx0 : x0 < 64) (y0 : Nat) (bs : List Byte) {r : Nat}
    (hfits : r + bs.length ≤ fbHeight) {cv : Canvas} (hwf : cv.mem.wf) :
    composeRows p x0 y0 r bs cv.mem = (Canvas.drawBits p x0 y0 cv (spriteBits r bs)).mem := by
  induction bs generalizing r cv with
  | nil => rfl
  | cons b bs ih =>
    have hbits : spriteBits r (b :: bs) = rowBits r b ++ spriteBits (r + 1) bs := rfl
    rw [List.length_cons] at hfits
    rw [composeRows, composeRow_eq_drawBits p hx0 y0 (by omega) b hwf, ih (by omega) (Canvas.wf_drawBits p x0 y0 _ hwf),
      hbits, Canvas.drawBits_append]

/-! ## The obligation -/

/-- Settles O30: row by row, from the memory before the draw. -/
theorem drawMatchesByteAlgorithm : Obligations.DrawMatchesByteAlgorithm := by
  unfold Obligations.DrawMatchesByteAlgorithm
  intro x y n s hwf h
  refine ⟨_, exec_drw h x y, (State.drawn_mem s x y n).trans ?_⟩
  have hfits : 0 + (s.spriteBytes n).length ≤ fbHeight := by
    rw [State.spriteBytes, Memory.readBytes_length, Nat.zero_add]
    exact Nat.le_trans n.isLt.le (by decide)
  exact (composeRows_eq_drawBits s.params (Nat.mod_lt _ (by decide)) _ _ hfits
    (cv := { mem := s.mem, hit := false }) hwf).symm

end Sys2Proof.Machine
end

section
/-! SUPPORT. Drawing the same sprite twice (42_display R204): a draw leaves what the second draw reads, so the second
toggles the same pixels back. -/

namespace Sys2Proof.Machine

variable {s : State} {x y : Reg} {n : Fin 16}

/-- A draw leaves sprite bytes that lie outside the framebuffer. -/
theorem State.spriteBytes_drawn (hout : ∀ k, k < n.val → s.params.inFB (s.ea + k) = false) :
    (s.drawn x y n).spriteBytes n = s.spriteBytes n := by
  have hea : (s.drawn x y n).ea = s.ea := by rw [State.ea, State.drawn_i, State.ea]
  rw [State.spriteBytes, State.spriteBytes, hea, State.drawn_mem]
  refine List.map_congr_left fun k hk => State.read_canvas_outside s x y n ?_
  have hfb := hout k (List.mem_range.mp hk)
  rw [← Bool.not_eq_true, Params.inFB_iff] at hfb
  omega

/-- With its coordinates outside VF and its sprite outside the framebuffer, a draw covers the same pixels again. -/
theorem State.spritePixels_drawn (hx : x ≠ 15) (hy : y ≠ 15)
    (hout : ∀ k, k < n.val → s.params.inFB (s.ea + k) = false) :
    (s.drawn x y n).spritePixels x y n = s.spritePixels x y n := by
  rw [State.spritePixels, State.spritePixels, State.spriteBytes_drawn hout, State.drawn_params,
    State.getV_drawn_other s x y n hx, State.getV_drawn_other s x y n hy]

/-- Each pixel is flipped back by the second of two draws that cover the same pixels. -/
theorem State.canvas_drawn_mem (hwf : s.mem.wf) (hsame : (s.drawn x y n).spritePixels x y n = s.spritePixels x y n) :
    ((s.drawn x y n).canvas x y n).mem = s.mem := by
  have hwf' : (s.drawn x y n).mem.wf := by rw [State.drawn_mem]; exact State.wf_canvas x y n hwf
  refine Memory.eq_of_pixels s.params (State.wf_canvas x y n hwf') hwf (fun a ha => ?_) fun px py hpx hpy => ?_
  · rw [State.read_canvas_outside _ x y n (by rwa [State.drawn_params]), State.drawn_mem,
      State.read_canvas_outside s x y n ha]
  · have hsecond := State.pixel_canvas (s.drawn x y n) x y n hpx py
    rw [hsame, State.drawn_params, State.drawn_mem, State.pixel_canvas s x y n hpx] at hsecond
    rw [hsecond, Bool.xor_assoc, Bool.xor_self, Bool.xor_false]

/-- The second of two draws collides exactly where a covered pixel was off before the first (42_display R204.2). -/
theorem State.hit_canvas_drawn_iff (hsame : (s.drawn x y n).spritePixels x y n = s.spritePixels x y n) :
    ((s.drawn x y n).canvas x y n).hit = true ↔
      ∃ px py, px < 64 ∧ py < 32 ∧ s.spriteCovers x y n px py ∧ s.mem.pixel s.params px py = false := by
  rw [State.hit_canvas_iff]
  refine exists_congr fun px => exists_congr fun py => and_congr_right fun hx => and_congr_right fun hy => ?_
  rw [← State.mem_spritePixels_iff (s.drawn x y n) x y n hx hy, hsame, ← State.mem_spritePixels_iff s x y n hx hy]
  refine and_congr_right fun hcov => ?_
  rw [State.drawn_params, State.drawn_mem, State.pixel_canvas s x y n hx, decide_eq_true hcov, Bool.xor_true,
    Bool.not_eq_true']

/-- Settles O31: the second draw covers the pixels of the first and so flips each of them back. -/
theorem drawTwiceRestores : Obligations.DrawTwiceRestores := by
  unfold Obligations.DrawTwiceRestores
  intro x y n s hwf h hx hy hout
  have hsame := State.spritePixels_drawn hx hy hout
  have hea : (s.drawn x y n).ea = s.ea := by rw [State.ea, State.drawn_i, State.ea]
  refine ⟨_, _, exec_drw h x y, exec_drw (by rw [hea]; exact h) x y, ?_, fun hon => ?_⟩
  · rw [State.drawn_mem, State.canvas_drawn_mem hwf hsame]
  · have hon' : (s.drawn x y n).params.drawCollision = true := by rw [State.drawn_params]; exact hon
    rw [State.drawn_vF _ x y n hon', boolByte_eq_one_iff, State.hit_canvas_drawn_iff hsame]

end Sys2Proof.Machine
end
